-- ==== Sys2Proof/Word.lean ====
section
/-! DEFINITION. The bit-vector types of the ports and of the values they carry
(spec/10_state.md R22, R24, R25; spec/00_scope.md R7, R8). -/

namespace Sys2Proof

/-- The command word `cw[8:0]` (R24, R55). -/
abbrev CommandWord := BitVec 9

/-- The operation code `cw[3:0]` (R55). -/
abbrev OpCode := BitVec 4

/-- The shift amount field `cw[8:4]` (R55). -/
abbrev ShiftField := BitVec 5

/-- A 32-bit container: the ports `a`, `b` and `y` (R7, R24, R25). -/
abbrev Container := BitVec 32

/-- The stored form of an Int24: 24-bit two's complement (R22). -/
abbrev Int24 := BitVec 24

/-- A 16-bit two's complement pattern (R6). -/
abbrev I16 := BitVec 16

/-- The status code `err[1:0]` (R25, R136). -/
abbrev Status := BitVec 2

end Sys2Proof
end

