-- ==== Sys2Proof/Config.lean ====
section
/-! DEFINITION. The fixed parameters of spec/00_scope.md R5 to R8, and the two values the spec leaves
open, as constants without a body. -/

namespace Sys2Proof.Config

/-- Value width `W` (R5). -/
abbrev W : Nat := 24
/-- Least Int24 value, `-2^23` (R5). -/
abbrev MIN : Int := -8388608
/-- Greatest Int24 value, `2^23 - 1` (R5). -/
abbrev MAX : Int := 8388607
/-- Least 16-bit value (R6). -/
abbrev I16_MIN : Int := -32768
/-- Greatest 16-bit value (R6). -/
abbrev I16_MAX : Int := 32767
/-- Least 32-bit value (R6). -/
abbrev I32_MIN : Int := -2147483648
/-- Greatest 32-bit value (R6). -/
abbrev I32_MAX : Int := 2147483647
/-- Container width `C` (R7). -/
abbrev C : Nat := 32
/-- Width of the operation code field (R8). -/
abbrev OP_W : Nat := 4
/-- Width of the shift amount field (R8). -/
abbrev N_W : Nat := 5
/-- Greatest legal shift amount (R8, R100). -/
abbrev N_MAX : Nat := 23
/-- Width of the command word (R8). -/
abbrev CW_W : Nat := 9
/-- Width of the status code output (R8). -/
abbrev ERR_W : Nat := 2

/-- `T_PD`, the settling time: the spec's one open parameter, used by no rule (R8, R166;
spec/93_implementation_defined.md U6). Log entry 10. -/
opaque tPd : Nat

/-- What the pins of `y` carry while transaction number `k` is failed: unspecified, so a constant
without a body, of which no proof can know a value (R141; U1). Log entry 3. -/
opaque freeY : Nat → Container

end Sys2Proof.Config
end

