-- ==== Sys2Proof/Syntax.lean ====
section
/-! DEFINITION. The instructions: one constructor per row of spec/opcode_table.json
(spec/30_encoding.md R59, R60). The operands `a` and `b` are on ports, not in the command word (R55), so
the only operand of a constructor is the shift amount of the three operations that read it (R56). -/

namespace Sys2Proof

/-- The twelve operations (R59) and the four reserved codes (R60). `n` is the integer `U_5(cw[8:4])` (R58). -/
inductive Instr where
  | add
  | sub
  | mul
  | div
  | shl (n : Nat)
  | shr (n : Nat)
  | shldiv (n : Nat)
  | cmp
  | fromi16
  | toi32
  | fromi32
  | toi16
  | reservedC
  | reservedD
  | reservedE
  | reservedF
  deriving DecidableEq, Repr

end Sys2Proof
end

