-- ==== Sys2Proof/WellFormed.lean ====
section
/-! DEFINITION. Which terms of Instr are instructions of the hardware: the shift amount is one the 5-bit
field can carry (spec/30_encoding.md R55, R58). Amounts 24 to 31 are well formed: they are expressible and
fail when executed (R58, R100). -/

namespace Sys2Proof

/-- A shift amount the field `cw[8:4]` can carry: `0..31` (R55). -/
def shiftEncodable (n : Nat) : Bool := n < 2 ^ Config.N_W

/-- The well-formed instructions: all, but for a shift amount outside `0..31`. -/
def wellFormed : Instr → Bool
  | .shl n => shiftEncodable n
  | .shr n => shiftEncodable n
  | .shldiv n => shiftEncodable n
  | .add => true
  | .sub => true
  | .mul => true
  | .div => true
  | .cmp => true
  | .fromi16 => true
  | .toi32 => true
  | .fromi32 => true
  | .toi16 => true
  | .reservedC => true
  | .reservedD => true
  | .reservedE => true
  | .reservedF => true

end Sys2Proof
end

