-- ==== Sys2Proof/Decode.lean ====
section
/-! DEFINITION. The command word: fields, decoder, encoder and the operation map of
spec/30_encoding.md R55 to R62. The core has no byte order (spec/20_memory.md R41), so the decoder reads a
9-bit word, not bytes. -/

namespace Sys2Proof

/-- `op = cw[3:0]` (R55). -/
def opField (cw : CommandWord) : OpCode := cw.extractLsb' 0 4

/-- `cw[8:4]` (R55). -/
def shiftField (cw : CommandWord) : ShiftField := cw.extractLsb' 4 5

/-- `n = U_5(cw[8:4])`, an integer in `0..31` (R55, R58). -/
def shiftAmount (cw : CommandWord) : Nat := (shiftField cw).toNat

/-- The decoder: total over all 512 command words (R59, R60, R61). The last arm is code `0xF` and no
other, since a 4-bit code has no value above it. -/
def decode (cw : CommandWord) : Instr :=
  match (opField cw).toNat with
  | 0x0 => .add
  | 0x1 => .sub
  | 0x2 => .mul
  | 0x3 => .div
  | 0x4 => .shl (shiftAmount cw)
  | 0x5 => .shr (shiftAmount cw)
  | 0x6 => .shldiv (shiftAmount cw)
  | 0x7 => .cmp
  | 0x8 => .fromi16
  | 0x9 => .toi32
  | 0xA => .fromi32
  | 0xB => .toi16
  | 0xC => .reservedC
  | 0xD => .reservedD
  | 0xE => .reservedE
  | _ => .reservedF

/-- The operation code of an instruction (R59, R60). -/
def opCode : Instr → OpCode
  | .add => 0x0#4
  | .sub => 0x1#4
  | .mul => 0x2#4
  | .div => 0x3#4
  | .shl _ => 0x4#4
  | .shr _ => 0x5#4
  | .shldiv _ => 0x6#4
  | .cmp => 0x7#4
  | .fromi16 => 0x8#4
  | .toi32 => 0x9#4
  | .fromi32 => 0xA#4
  | .toi16 => 0xB#4
  | .reservedC => 0xC#4
  | .reservedD => 0xD#4
  | .reservedE => 0xE#4
  | .reservedF => 0xF#4

/-- The shift amount of an instruction; `0` where its format does not read `n`, which is what the
assembler emits there (R63). -/
def shiftOperand : Instr → Nat
  | .shl n => n
  | .shr n => n
  | .shldiv n => n
  | .add => 0
  | .sub => 0
  | .mul => 0
  | .div => 0
  | .cmp => 0
  | .fromi16 => 0
  | .toi32 => 0
  | .fromi32 => 0
  | .toi16 => 0
  | .reservedC => 0
  | .reservedD => 0
  | .reservedE => 0
  | .reservedF => 0

/-- The encoder: `cw = {n in 5 bits, op}` (R55, R63). -/
def encode (i : Instr) : CommandWord := BitVec.ofNat 5 (shiftOperand i) ++ opCode i

/-- The mnemonic of an instruction, as spec/opcode_table.json writes it (R59, R64). -/
def mnemonic : Instr → String
  | .add => "ADD"
  | .sub => "SUB"
  | .mul => "MUL"
  | .div => "DIV"
  | .shl _ => "SHL"
  | .shr _ => "SHR"
  | .shldiv _ => "SHLDIV"
  | .cmp => "CMP"
  | .fromi16 => "FROMI16"
  | .toi32 => "TOI32"
  | .fromi32 => "FROMI32"
  | .toi16 => "TOI16"
  | .reservedC => "RESERVED_C"
  | .reservedD => "RESERVED_D"
  | .reservedE => "RESERVED_E"
  | .reservedF => "RESERVED_F"

/-- One row of the operation map: an encoding selects the row iff `(cw AND mask) = pattern` (R59). -/
structure Row where
  name : String
  pattern : CommandWord
  mask : CommandWord
  deriving DecidableEq, Repr

/-- The operation map of R59 and R60, transcribed row by row. -/
def operationMap : List Row :=
  [ ⟨"ADD", 0x000#9, 0x00F#9⟩, ⟨"SUB", 0x001#9, 0x00F#9⟩, ⟨"MUL", 0x002#9, 0x00F#9⟩,
    ⟨"DIV", 0x003#9, 0x00F#9⟩, ⟨"SHL", 0x004#9, 0x00F#9⟩, ⟨"SHR", 0x005#9, 0x00F#9⟩,
    ⟨"SHLDIV", 0x006#9, 0x00F#9⟩, ⟨"CMP", 0x007#9, 0x00F#9⟩ ] ++
  [ ⟨"FROMI16", 0x008#9, 0x00F#9⟩, ⟨"TOI32", 0x009#9, 0x00F#9⟩, ⟨"FROMI32", 0x00A#9, 0x00F#9⟩,
    ⟨"TOI16", 0x00B#9, 0x00F#9⟩, ⟨"RESERVED_C", 0x00C#9, 0x00F#9⟩, ⟨"RESERVED_D", 0x00D#9, 0x00F#9⟩,
    ⟨"RESERVED_E", 0x00E#9, 0x00F#9⟩, ⟨"RESERVED_F", 0x00F#9, 0x00F#9⟩ ]

/-- The rows a command word selects (R59: exactly one). -/
def rowsOf (cw : CommandWord) : List Row := operationMap.filter fun r => cw &&& r.mask == r.pattern

/-- Why a number is no command word: the rejections of `decodeNat`. -/
inductive DecodeError where
  /-- Raised by `decodeNat`: the number does not fit the 9 bits of `cw` (R55). Safe. -/
  | widerThanCommandWord
  deriving DecidableEq, Repr

/-- The decoder on any number: a number of more than 9 bits is no command word (R55, R62). Log entry 13. -/
def decodeNat (w : Nat) : Except DecodeError Instr :=
  if w < 2 ^ Config.CW_W then .ok (decode (BitVec.ofNat 9 w)) else .error .widerThanCommandWord

/-- The instruction the decoder reads from the word `w`, numbered as spec/opcode_table.json numbers it.
Every command word has one length (R55, R62), so the width `nbits` of the row decides nothing. -/
def decodeTableWord (_nbits w : Nat) : Option Instr := (decodeNat w).toOption

end Sys2Proof
end

