-- ==== Sys2Proof/Machine/State.lean ====
section
/-! DEFINITION. What the machine's state holds. The core itself has none: its state is the unit type
(spec/10_state.md R20, R21). State is the core's boundary and the host level the spec describes: the input
ports (R24), the host's program (spec/70_reset_and_hazards.md R169) and its run record (R170). -/

namespace Sys2Proof.Machine

/-- The three failure codes (spec/60_exceptions.md R136). -/
inductive FailCode where
  | divByZero
  | shiftRange
  | illegalOp
  deriving DecidableEq, Repr

/-- The response of a transaction (spec/30_encoding.md R66): a result container, or a failure code and no
result at all (R141). -/
inductive Response where
  | ok (y : Container)
  | fail (code : FailCode)
  deriving DecidableEq, Repr

/-- An operand of a program line (R63): a 32-bit literal, or `r<k>`, the result of line `t<k>`. -/
inductive Operand where
  | lit (v : Container)
  | ref (k : Nat)
  deriving DecidableEq, Repr

/-- A program line: a request whose operands may be references to earlier results (R63, R169). -/
structure Line where
  cw : CommandWord
  a : Operand
  b : Operand
  deriving DecidableEq, Repr

/-- What the host does after a failed transaction: it stops (R170), or continues (R171, R172). -/
inductive FailurePolicy where
  | stop
  | goOn
  deriving DecidableEq, Repr

/-- The core's boundary and the host level. Log entry 1. -/
structure State where
  /-- Input port `cw[8:0]` (R24). -/
  cw : CommandWord
  /-- Input port `a[31:0]` (R24). -/
  a : Container
  /-- Input port `b[31:0]` (R24). -/
  b : Container
  /-- The lines of the host's program not yet presented, first line first (R169). -/
  pending : List Line
  /-- The run record: the responses to the lines presented so far, in order (R170). -/
  responses : List Response
  /-- Whether the host stops at the first failure (R170) or goes on (R171). -/
  onFailure : FailurePolicy
  deriving DecidableEq, Repr

/-- Why no further transaction happens. Each is an end of the host's run (R170), not a stop of the core:
the core answers every request (R172). -/
inductive Fault where
  /-- Raised by `step` when no line is left: the run ended after the last line (R170). Safe: nothing is
  presented, so there is no transaction. Log entry 8. -/
  | runEnded
  /-- Raised by `step` when the host stopped at the first failure, that of line `t<k>` with `code`: the state
  "failed at t<k> with code" is final (R170). Safe: a real host may go on (R171), which the policy `goOn` is.
  Log entry 7. -/
  | failedAt (k : Nat) (code : FailCode)
  deriving DecidableEq, Repr

/-- Why a step has no meaning. -/
inductive Refusal where
  /-- Raised by a dispatch arm of an instruction without a meaning: none is left. Safe. -/
  | notModelled (mnemonic : String)
  /-- Raised by `step` when line `t<k>` refers to a host variable that holds nothing: the line is ill-formed
  and has no request to present (R169). Safe. Log entry 9. -/
  | illFormedLine (k : Nat)
  deriving DecidableEq, Repr

/-- What an instruction or a step answers. -/
abbrev Outcome := Host.Outcome State Fault Refusal

/-- The state before the first transaction. There is no reset and no state to reset (R160, R161): no
program is loaded and nothing has been presented. The ports' values are the model's (log entry 4), and so
is the host's policy (log entry 7). -/
def State.reset : State :=
  { cw := 0#9, a := 0#32, b := 0#32, pending := [], responses := [], onFailure := .stop }

end Sys2Proof.Machine
end

