-- ==== Sys2Proof/Machine/Operands.lean ====
section
/-! DEFINITION. Operands and results: how a container is read and written (spec/10_state.md R28, R29), the
arithmetic on mathematical integers (spec/00_scope.md R10 to R13), and which inputs each format reads
(spec/30_encoding.md R56, R57). -/

namespace Sys2Proof.Machine

/-- `container[23:0]` (R28). -/
def low24 (c : Container) : Int24 := c.extractLsb' 0 24

/-- `container[15:0]` (R28). -/
def low16 (c : Container) : I16 := c.extractLsb' 0 16

/-- The Int24 operand of a container, `S_24(container[23:0])`: `A` for port `a`, `B` for port `b` (R14, R28). -/
def int24 (c : Container) : Int := (low24 c).toInt

/-- The 16-bit operand of a container, `S_16(container[15:0])` (R28, R120). -/
def int16 (c : Container) : Int := (low16 c).toInt

/-- The 32-bit operand of a container, `S_32(container)` (R28, R122). -/
def int32 (c : Container) : Int := c.toInt

/-- `enc_32(v)` (R10, R29). -/
def enc32 (v : Int) : Container := BitVec.ofInt 32 v

/-- `sext_32(p)` for a 24-bit `p` (R11). -/
def sext32 (p : Int24) : Container := p.signExtend 32

/-- `clamp(v, lo, hi)` (R12). -/
def clamp (v lo hi : Int) : Int := if v > hi then hi else if v < lo then lo else v

/-- `clamp24(v)` (R12). -/
def clamp24 (v : Int) : Int := clamp v Config.MIN Config.MAX

/-- `clamp16(v)` (R12). -/
def clamp16 (v : Int) : Int := clamp v Config.I16_MIN Config.I16_MAX

/-- `tdiv(x, d) = sgn(x) * sgn(d) * floor(|x| / |d|)` (R13). No rule evaluates it at `d = 0`, and no
meaning does. -/
def tdiv (x d : Int) : Int := x.sign * d.sign * ((x.natAbs / d.natAbs : Nat) : Int)

/-- `v * 2^n`, exact (R101, R103). -/
def shiftedLeft (v : Int) (n : Nat) : Int := v * 2 ^ n

/-- `{rep(p[23], n), p[23:n]}`: the top `n` bits are copies of the sign bit (R102). -/
def arithShiftRight (p : Int24) (n : Nat) : Int24 := p.sshiftRight n

/-- The formats of R56. -/
inductive Format where
  | AB
  | AN
  | ANB
  | A
  | RSV
  deriving DecidableEq, Repr

/-- The format of each operation (R56, R59). -/
def format : Instr → Format
  | .add => .AB
  | .sub => .AB
  | .mul => .AB
  | .div => .AB
  | .shl _ => .AN
  | .shr _ => .AN
  | .shldiv _ => .ANB
  | .cmp => .AB
  | .fromi16 => .A
  | .toi32 => .A
  | .fromi32 => .A
  | .toi16 => .A
  | .reservedC => .RSV
  | .reservedD => .RSV
  | .reservedE => .RSV
  | .reservedF => .RSV

/-- The bits of `cw` an operation reads: `op` always, `n` in formats AN and ANB (R56). -/
def readMaskCw (i : Instr) : CommandWord :=
  match format i with
  | .AB => 0x00F#9
  | .AN => 0x1FF#9
  | .ANB => 0x1FF#9
  | .A => 0x00F#9
  | .RSV => 0x00F#9

/-- How many low bits of `a` an operation reads: 16, 24 or 32 where its format reads `a` (R56). -/
def readWidthA : Instr → Nat
  | .add => 24
  | .sub => 24
  | .mul => 24
  | .div => 24
  | .shl _ => 24
  | .shr _ => 24
  | .shldiv _ => 24
  | .cmp => 24
  | .fromi16 => 16
  | .toi32 => 24
  | .fromi32 => 32
  | .toi16 => 24
  | .reservedC => 0
  | .reservedD => 0
  | .reservedE => 0
  | .reservedF => 0

/-- How many low bits of `b` an operation reads (R56). -/
def readWidthB (i : Instr) : Nat :=
  match format i with
  | .AB => 24
  | .AN => 0
  | .ANB => 24
  | .A => 0
  | .RSV => 0

/-- A container with every bit from bit `k` up cleared. -/
def keepLow (k : Nat) (c : Container) : Container := c &&& BitVec.ofNat 32 (2 ^ k - 1)

end Sys2Proof.Machine
end

