-- ==== Sys2Proof/Machine/Flags.lean ====
section
/-! DEFINITION. Condition-like outputs. The core keeps no flag (spec/10_state.md R30, R32); the only
condition-like bits are the three ordering bits of CMP, which are a result of the same transaction
(spec/42_compare.md R115). -/

namespace Sys2Proof.Machine

/-- `{gt, eq, lt}`: bit 0 is `x < y`, bit 1 is `x = y`, bit 2 is `x > y` (R115). -/
def orderBits (x y : Int) : BitVec 3 :=
  BitVec.ofBool (decide (x > y)) ++ BitVec.ofBool (decide (x = y)) ++ BitVec.ofBool (decide (x < y))

end Sys2Proof.Machine
end

