-- ==== Sys2Proof/Machine/Ops.lean ====
section
/-! DEFINITION. The shared operations: a successful result, raising a failure, and completing a
transaction (spec/30_encoding.md R66; spec/60_exceptions.md R136, R141, R144). -/

namespace Sys2Proof.Machine

/-- The successful response whose result is the signed integer `r`: `Ok(enc_32(r))` (R29). -/
def success (r : Int) : Response := .ok (enc32 r)

/-- `raise <Failure>` (R14): the transaction ends as failed with that code and no result (R141). This is the
whole of "trap entry": a failure saves nothing, changes no mode and transfers control nowhere (R144); and
nothing is entered, so there is no return from it (R145). -/
def raise (code : FailCode) : Response := .fail code

/-- The run record with one more response (R170). -/
def State.record (s : State) (r : Response) : State := { s with responses := s.responses ++ [r] }

/-- Completing the transaction on the ports: the host samples its response. A transaction reads nothing but
its request and writes nothing but its response (R168), failed or not (R144). The request stays on the input ports
(log entry 19). -/
def complete (r : Response) (s : State) : Outcome := .next (s.record r)

/-- The value of a failure on `err[1:0]` (R136). -/
def FailCode.status : FailCode → Status
  | .divByZero => 0b01#2
  | .shiftRange => 0b10#2
  | .illegalOp => 0b11#2

/-- `err[1:0]` of a response (R66, R136). -/
def Response.err : Response → Status
  | .ok _ => 0b00#2
  | .fail c => c.status

/-- The result of a response, if there is one (R141). -/
def Response.result? : Response → Option Container
  | .ok y => some y
  | .fail _ => none

/-- The failure code of a response, if it failed. -/
def Response.failCode? : Response → Option FailCode
  | .ok _ => none
  | .fail c => some c

end Sys2Proof.Machine
end

