-- ==== Sys2Proof/Machine/Arithmetic.lean ====
section
/-! DEFINITION. ADD, SUB, MUL and DIV: widen, compute exactly, clamp (spec/40_arithmetic.md R80 to R84). -/

namespace Sys2Proof.Machine

/-- ADD of the containers `a`, `b` (R81). -/
def respAdd (a b : Container) : Response := success (clamp24 (int24 a + int24 b))

/-- SUB: the difference of the mathematical integers, no 24-bit negation (R82). -/
def respSub (a b : Container) : Response := success (clamp24 (int24 a - int24 b))

/-- MUL: the clamped full product (R83). -/
def respMul (a b : Container) : Response := success (clamp24 (int24 a * int24 b))

/-- DIV: a zero divisor fails, for every dividend; else the quotient rounded toward zero, clamped (R84, R137). -/
def respDiv (a b : Container) : Response :=
  if int24 b = 0 then raise .divByZero
  else success (clamp24 (tdiv (int24 a) (int24 b)))

/-- The meaning of ADD (R81). -/
def execAdd (s : State) : Outcome := complete (respAdd s.a s.b) s

/-- The meaning of SUB (R82). -/
def execSub (s : State) : Outcome := complete (respSub s.a s.b) s

/-- The meaning of MUL (R83). -/
def execMul (s : State) : Outcome := complete (respMul s.a s.b) s

/-- The meaning of DIV (R84). -/
def execDiv (s : State) : Outcome := complete (respDiv s.a s.b) s

end Sys2Proof.Machine
end

