-- ==== Sys2Proof/Machine/Compare.lean ====
section
/-! DEFINITION. CMP, the signed comparator (spec/42_compare.md R115). -/

namespace Sys2Proof.Machine

/-- CMP: `y = zext_32({gt, eq, lt})` of the sign-extended values (R115). -/
def respCmp (a b : Container) : Response := .ok ((orderBits (int24 a) (int24 b)).zeroExtend 32)

/-- The meaning of CMP (R115). -/
def execCmp (s : State) : Outcome := complete (respCmp s.a s.b) s

end Sys2Proof.Machine
end

