-- ==== Sys2Proof/Machine/Conversion.lean ====
section
/-! DEFINITION. FROMI16, TOI32, FROMI32 and TOI16 (spec/43_conversion.md R120 to R123). -/

namespace Sys2Proof.Machine

/-- FROMI16: exact (R120). -/
def respFromi16 (a : Container) : Response := success (int16 a)

/-- TOI32: bit 23 replicated into the bits above it (R121). -/
def respToi32 (a : Container) : Response := .ok (sext32 (low24 a))

/-- FROMI32: all 32 bits of `a`, clamped to 24 bits (R122). -/
def respFromi32 (a : Container) : Response := success (clamp24 (int32 a))

/-- TOI16: clamped to 16 bits (R123). -/
def respToi16 (a : Container) : Response := success (clamp16 (int24 a))

/-- The meaning of FROMI16 (R120). -/
def execFromi16 (s : State) : Outcome := complete (respFromi16 s.a) s

/-- The meaning of TOI32 (R121). -/
def execToi32 (s : State) : Outcome := complete (respToi32 s.a) s

/-- The meaning of FROMI32 (R122). -/
def execFromi32 (s : State) : Outcome := complete (respFromi32 s.a) s

/-- The meaning of TOI16 (R123). -/
def execToi16 (s : State) : Outcome := complete (respToi16 s.a) s

end Sys2Proof.Machine
end

