-- ==== Sys2Proof/Machine/Reserved.lean ====
section
/-! DEFINITION. The four reserved operation codes: each fails with ILLEGAL_OP whatever `n`, `a` and `b` hold,
and returns no result (spec/30_encoding.md R60; spec/60_exceptions.md R139). -/

namespace Sys2Proof.Machine

/-- The meaning of code `0xC` (R60). -/
def execReservedC (s : State) : Outcome := complete (raise .illegalOp) s

/-- The meaning of code `0xD` (R60). -/
def execReservedD (s : State) : Outcome := complete (raise .illegalOp) s

/-- The meaning of code `0xE` (R60). -/
def execReservedE (s : State) : Outcome := complete (raise .illegalOp) s

/-- The meaning of code `0xF` (R60). -/
def execReservedF (s : State) : Outcome := complete (raise .illegalOp) s

end Sys2Proof.Machine
end

