-- ==== Sys2Proof/Machine/Shift.lean ====
section
/-! DEFINITION. SHL, SHR and the fused SHLDIV (spec/41_shift.md R100 to R104). -/

namespace Sys2Proof.Machine

/-- SHL: the exact shifted value, clamped (R101); an amount above 23 fails, whatever `a` holds (R100). -/
def respShl (n : Nat) (a : Container) : Response :=
  if n > Config.N_MAX then raise .shiftRange
  else success (clamp24 (shiftedLeft (int24 a) n))

/-- SHR: the arithmetic right shift of the 24-bit pattern (R102). -/
def respShr (n : Nat) (a : Container) : Response :=
  if n > Config.N_MAX then raise .shiftRange
  else success (arithShiftRight (low24 a) n).toInt

/-- SHLDIV: the zero divisor is tested first, for every `n`; the shifted value goes unclamped into the
division (R103, R104, R142). -/
def respShldiv (n : Nat) (a b : Container) : Response :=
  if int24 b = 0 then raise .divByZero
  else if n > Config.N_MAX then raise .shiftRange
  else success (clamp24 (tdiv (shiftedLeft (int24 a) n) (int24 b)))

/-- The meaning of SHL (R101). -/
def execShl (n : Nat) (s : State) : Outcome := complete (respShl n s.a) s

/-- The meaning of SHR (R102). -/
def execShr (n : Nat) (s : State) : Outcome := complete (respShr n s.a) s

/-- The meaning of SHLDIV (R103). -/
def execShldiv (n : Nat) (s : State) : Outcome := complete (respShldiv n s.a s.b) s

end Sys2Proof.Machine
end

