-- ==== Sys2Proof/Machine/Program.lean ====
section
/-! DEFINITION. The host level: host variables, presenting the next line of the program, the end of a run
(spec/70_reset_and_hazards.md R169 to R171), and loading a program or one command word. -/

namespace Sys2Proof.Machine

/-- The host variable `r<k>`: the `y` of the k-th transaction if that succeeded, and nothing otherwise
(R169). Lines are `t1`, `t2`, ... in order (log entry 6). -/
def State.hostVar (s : State) : Nat → Option Container
  | 0 => none
  | k + 1 => (s.responses[k]?).bind Response.result?

/-- The value of an operand of the next line, if it has one (R63, R169). -/
def State.operand (s : State) : Operand → Option Container
  | .lit v => some v
  | .ref k => s.hostVar k

/-- The first failure of a run record whose first response is that of line `t<k>` (R170). -/
def firstFailureFrom (k : Nat) : List Response → Option (Nat × FailCode)
  | [] => none
  | .ok _ :: rs => firstFailureFrom (k + 1) rs
  | .fail c :: _ => some (k, c)

/-- The failure the host stopped at, if it stopped: the first one, under the policy `stop` (R170, R171). -/
def State.stoppedAt (s : State) : Option (Nat × FailCode) :=
  match s.onFailure with
  | .stop => firstFailureFrom 1 s.responses
  | .goOn => none

/-- The ports with a request on them, the line it came from taken off the program (R24, R165, R168). The request
stays there until the next one is presented: DESIGN CHOICE after the host has sampled the response, up to which
R165 requires it (log entry 19). -/
def State.drive (s : State) (cw : CommandWord) (a b : Container) (rest : List Line) : State :=
  { s with cw := cw, a := a, b := b, pending := rest }

/-- The host presents its next request: none after a failure it stopped at, none after the last line
(R170), none from a line whose reference holds nothing (R169). -/
def present (s : State) : Outcome :=
  match s.stoppedAt, s.pending with
  | some (k, c), _ => .fault (.failedAt k c)
  | none, [] => .fault .runEnded
  | none, l :: rest =>
    match s.operand l.a, s.operand l.b with
    | some a, some b => .next (s.drive l.cw a b rest)
    | _, _ => .refused (.illFormedLine (s.responses.length + 1))

/-- How a run ended (R170): failed at `t<k>` with `code`, or after the last line with the values of all
`r<k>`, `r1` first, `none` for one that holds nothing (R169). -/
inductive RunEnd where
  | failed (k : Nat) (code : FailCode)
  | finished (vars : List (Option Container))
  deriving DecidableEq, Repr

/-- The end state of a run, `none` while it goes on (R170). DESIGN CHOICE (log entry 7) for a host that goes on after
a failure (R171), for which R170 names no end: its run too is finished after the last line, with `none` for the
`r<k>` of each failed line. DESIGN CHOICE (log entry 9): a run with an ill-formed line next has not ended. -/
def State.runEnd (s : State) : Option RunEnd :=
  match s.stoppedAt, s.pending with
  | some (k, c), _ => some (.failed k c)
  | none, [] => some (.finished (s.responses.map Response.result?))
  | none, _ :: _ => none

/-- The host starts a program: all its lines pending, no host variable holding a value (R169). Log entry 5.
DESIGN CHOICE (log entry 19): the input ports keep the request they carried before; the spec says only that the
host drives them (R36). DESIGN CHOICE (log entry 7): the host keeps its policy `onFailure`, also one that `loadWord`
has set to `goOn`; the spec is silent on the policy for the next program (R170, R171). -/
def State.load (s : State) (p : List Line) : State := { s with pending := p, responses := [] }

/-- A reference in line `t<j>` names an earlier line (R169). -/
def operandWellFormed (j : Nat) : Operand → Bool
  | .lit _ => true
  | .ref k => 1 ≤ k && k < j

/-- A program whose first line is `t<j>`, every reference to an earlier line (R169). -/
def programWellFormed (j : Nat) : List Line → Bool
  | [] => true
  | l :: p => operandWellFormed j l.a && operandWellFormed j l.b && programWellFormed (j + 1) p

/-- The state with the command word `w` as the host's next line, its operands the values the ports `a` and `b`
carry now, and the host free to present it: one that had stopped goes on from now, with later programs too. DESIGN
CHOICE, log entries 7 and 18. -/
def State.loadWord (s : State) (w : Nat) : State :=
  { s with
    pending := ⟨BitVec.ofNat 9 w, .lit s.a, .lit s.b⟩ :: s.pending.tail
    onFailure := if s.stoppedAt.isSome then .goOn else s.onFailure }

end Sys2Proof.Machine
end

