-- ==== Sys2Proof/Machine/Step.lean ====
section
/-! DEFINITION. One step is one transaction (spec/70_reset_and_hazards.md R168): the host presents the next
line's request, and the core answers it. -/

namespace Sys2Proof.Machine

/-- The step: present a request, decode its command word, execute. -/
def step (s : State) : Host.Outcome State Fault Refusal :=
  match present s with
  | .next s' => exec (decode s'.cw) s'
  | .fault f => .fault f
  | .refused r => .refused r

/-- `s` with the command word `w` where the next step takes its request from. The width `nbits` decides
nothing, since every command word has 9 bits (R55, R62). -/
def State.withFetchWord (s : State) (_nbits w : Nat) : State := s.loadWord w

end Sys2Proof.Machine
end

