-- ==== Sys2Proof/Machine/Assembler.lean ====
section
/-! DEFINITION. The textual notation of a program line (spec/30_encoding.md R63, R64;
spec/70_reset_and_hazards.md R169): `t<k>: MNEMONIC operands`. There are no pseudo-instructions (R65), so no
name outside the table assembles. What R63 and R169 do not say of the notation (spaces, letter case, signs, leading
zeros, comments, labels) is log entry 14. -/

namespace Sys2Proof.Machine

/-- A text between two separators, for each pair of neighbouring separators. -/
def pieces (sep : Char) : List Char → List (List Char)
  | [] => [[]]
  | c :: cs =>
    if c = sep then [] :: pieces sep cs
    else
      match pieces sep cs with
      | [] => [[c]]
      | w :: ws => (c :: w) :: ws

/-- A text without the spaces at its ends. -/
def trim (t : List Char) : List Char :=
  (((t.dropWhile (· == ' ')).reverse).dropWhile (· == ' ')).reverse

/-- The value of a digit in base 10 or 16. -/
def digitValue (base : Nat) (c : Char) : Option Nat :=
  let v :=
    if '0' ≤ c ∧ c ≤ '9' then c.toNat - '0'.toNat
    else if 'A' ≤ c ∧ c ≤ 'F' then c.toNat - 'A'.toNat + 10
    else if 'a' ≤ c ∧ c ≤ 'f' then c.toNat - 'a'.toNat + 10
    else base
  if v < base then some v else none

/-- The number that one or more digits, most significant first, write after `acc`. -/
def digitsFrom (base acc : Nat) : List Char → Option Nat
  | [] => some acc
  | c :: cs => (digitValue base c).bind fun d => digitsFrom base (acc * base + d) cs

/-- The number written by one or more digits. -/
def number (base : Nat) : List Char → Option Nat
  | [] => none
  | c :: cs => digitsFrom base 0 (c :: cs)

/-- `v` where it is at most `bound`. -/
def atMost (bound v : Nat) : Option Nat := if v ≤ bound then some v else none

/-- An operand `A` or `B` (R63): `0x` and one to eight hex digits, zero-extended; a signed decimal in the
32-bit range, meaning `enc_32(v)`; or `r<k>`. DESIGN CHOICE (log entry 14): a decimal literal has no plus sign
(`+5` is refused), and may have leading zeros and a minus sign before zero (`007`, `-0`); `r<k>` may have leading
zeros. -/
def parseOperand (t : List Char) : Option Operand :=
  match trim t with
  | '0' :: 'x' :: ds =>
    if ds.length ≤ 8 then (number 16 ds).map fun v => .lit (BitVec.ofNat 32 v) else none
  | 'r' :: ds => (number 10 ds).bind fun k => if 1 ≤ k then some (.ref k) else none
  | '-' :: ds => ((number 10 ds).bind (atMost 2147483648)).map fun v => .lit (enc32 (-(v : Int)))
  | ds => ((number 10 ds).bind (atMost 2147483647)).map fun v => .lit (enc32 (v : Int))

/-- A shift amount `N`: a decimal literal `0..31` (R63). It may have leading zeros: DESIGN CHOICE, log entry 14. -/
def parseShift (t : List Char) : Option Nat := (number 10 (trim t)).bind (atMost 31)

/-- The mnemonics, the document's own names beside them, and the operation each names, given the shift
amount of those that read one (R59, R64). -/
def namedOperations : List (String × String × (Nat → Instr)) :=
  [ ("ADD", "add", fun _ => .add), ("SUB", "sub", fun _ => .sub),
    ("MUL", "mul", fun _ => .mul), ("DIV", "div", fun _ => .div),
    ("SHL", "shift_left", fun n => .shl n), ("SHR", "shift_right", fun n => .shr n) ] ++
  [ ("SHLDIV", "shift_left_then_div", fun n => .shldiv n), ("CMP", "compare", fun _ => .cmp),
    ("FROMI16", "from_i16", fun _ => .fromi16), ("TOI32", "to_i32", fun _ => .toi32),
    ("FROMI32", "from_i32", fun _ => .fromi32), ("TOI16", "to_i16", fun _ => .toi16) ]

/-- The operation a name stands for; either spelling may be used (R64). -/
def operationNamed (name : List Char) : Option (Nat → Instr) :=
  (namedOperations.find? fun r => name == r.1.toList || name == r.2.1.toList).map fun r => r.2.2

/-- The line of an operation and its operand texts, in the order of the syntax lines of R63. For a format
that does not read `n` or `b`, the assembler emits `n = 0` and `b = 0x00000000`. -/
def assembleOperation (op : Nat → Instr) (args : List (List Char)) : Option Line :=
  match format (op 0), args with
  | .AB, [x, y] =>
    (parseOperand x).bind fun a => (parseOperand y).map fun b => ⟨encode (op 0), a, b⟩
  | .AN, [x, m] =>
    (parseOperand x).bind fun a => (parseShift m).map fun n => ⟨encode (op n), a, .lit 0#32⟩
  | .ANB, [x, m, y] =>
    (parseOperand x).bind fun a => (parseShift m).bind fun n =>
      (parseOperand y).map fun b => ⟨encode (op n), a, b⟩
  | .A, [x] => (parseOperand x).map fun a => ⟨encode (op 0), a, .lit 0#32⟩
  | _, _ => none

/-- A raw request `.cw 0x00C, A, B` (R63): a command word in hex, with explicit `a` and `b`. DESIGN CHOICE (log
entry 14): R63 introduces the form for reserved operations; here it writes any of the 512 command words, those of
legal operations with a nonzero ignored `n` or `b` among them, with one or more hex digits. -/
def assembleRaw (args : List (List Char)) : Option Line :=
  match args with
  | [w, x, y] =>
    match trim w with
    | '0' :: 'x' :: ds =>
      ((number 16 ds).bind (atMost 511)).bind fun v =>
        (parseOperand x).bind fun a => (parseOperand y).map fun b => ⟨BitVec.ofNat 9 v, a, b⟩
    | _ => none
  | _ => none

/-- A line without its label. -/
def assembleBody (t : List Char) : Option Line :=
  let body := trim t
  let name := body.takeWhile (· != ' ')
  let args := pieces ',' (body.dropWhile (· != ' '))
  if name == ".cw".toList then assembleRaw args
  else (operationNamed name).bind fun op => assembleOperation op args

/-- Line number `k` of a program, with its label `t<k>:` (R169) or without one. DESIGN CHOICE (log entry 14): R169
has comments in a program and fixes no form of them, and no form is accepted here, so a text with a comment in it
is refused; the label may be left out, as in the syntax lines of R63, and its number may have leading zeros. -/
def assembleLine (k : Nat) (text : String) : Option Line :=
  match pieces ':' text.toList with
  | [body] => assembleBody body
  | [label, body] =>
    match trim label with
    | 't' :: ds => if number 10 ds = some k then assembleBody body else none
    | _ => none
  | _ => none

/-- The lines of a program from line number `k` on. -/
def assembleFrom (k : Nat) : List String → Option (List Line)
  | [] => some []
  | t :: ts => (assembleLine k t).bind fun l => (assembleFrom (k + 1) ts).map fun p => l :: p

/-- The program a list of texts writes, if every line assembles and refers to earlier lines only (R63, R169).
One text is one line, and an empty text is refused: DESIGN CHOICE, log entry 14. -/
def assemble (texts : List String) : Option (List Line) :=
  (assembleFrom 1 texts).bind fun p => if programWellFormed 1 p then some p else none

end Sys2Proof.Machine
end

