-- ==== Sys2Proof/Machine/Units.lean ====
section
/-! DEFINITION. The unit-level view of spec/30_encoding.md R69: each unit wired separately, with exact-width
ports. -/

namespace Sys2Proof.Machine

/-- `enc_24(v)` (R10). -/
def enc24 (v : Int) : Int24 := BitVec.ofInt 24 v

/-- The 24-bit saturating adder: `(24, 24) -> 24` (R69, R81). -/
def add24 (x y : Int24) : Int24 := enc24 (clamp24 (x.toInt + y.toInt))

/-- The 24-bit saturating subtractor: `(24, 24) -> 24` (R69, R82). -/
def sub24 (x y : Int24) : Int24 := enc24 (clamp24 (x.toInt - y.toInt))

/-- The 24-bit saturating multiplier: `(24, 24) -> 24` (R69, R83). -/
def mul24 (x y : Int24) : Int24 := enc24 (clamp24 (x.toInt * y.toInt))

/-- The 24-bit saturating divider: `(24, 24) -> 24 or DIV_BY_ZERO` (R69, R84). -/
def div24 (x y : Int24) : Except FailCode Int24 :=
  if y = 0#24 then .error .divByZero else .ok (enc24 (clamp24 (tdiv x.toInt y.toInt)))

/-- The left shifter: `(24, 5) -> 24 or SHIFT_RANGE` (R69, R101). -/
def shl24 (x : Int24) (n : ShiftField) : Except FailCode Int24 :=
  if n.toNat > Config.N_MAX then .error .shiftRange
  else .ok (enc24 (clamp24 (shiftedLeft x.toInt n.toNat)))

/-- The arithmetic right shifter: `(24, 5) -> 24 or SHIFT_RANGE` (R69, R102). -/
def shr24 (x : Int24) (n : ShiftField) : Except FailCode Int24 :=
  if n.toNat > Config.N_MAX then .error .shiftRange else .ok (arithShiftRight x n.toNat)

/-- The fused path: `(24, 5, 24) -> 24 or DIV_BY_ZERO or SHIFT_RANGE` (R69, R103). -/
def shldiv24 (x : Int24) (n : ShiftField) (d : Int24) : Except FailCode Int24 :=
  if d = 0#24 then .error .divByZero
  else if n.toNat > Config.N_MAX then .error .shiftRange
  else .ok (enc24 (clamp24 (tdiv (shiftedLeft x.toInt n.toNat) d.toInt)))

/-- The comparator: `(24, 24) -> 3`, that is `{gt, eq, lt}` (R69, R115). -/
def cmp24 (x y : Int24) : BitVec 3 := orderBits x.toInt y.toInt

/-- The sign-extension unit `16 -> 24` (R69, R120). -/
def sext16to24 (x : I16) : Int24 := x.signExtend 24

/-- The sign-extension unit `24 -> 32` (R69, R121). -/
def sext24to32 (x : Int24) : Container := x.signExtend 32

/-- The narrowing unit `32 -> 24` (R69, R122). -/
def sat32to24 (x : Container) : Int24 := enc24 (clamp24 x.toInt)

/-- The narrowing unit `24 -> 16` (R69, R123). -/
def sat24to16 (x : Int24) : I16 := BitVec.ofInt 16 (clamp16 x.toInt)

end Sys2Proof.Machine
end

