-- ==== Sys2Proof/Machine/Transaction.lean ====
section
/-! DEFINITION. The core as one function of its inputs: the top-level function `F` of spec/30_encoding.md R67
and the failure function of spec/60_exceptions.md R152, each transcribed from its rule and not from the
dispatch, so that they can be compared with it. -/

namespace Sys2Proof.Machine

/-- `F(cw, a, b)`, total over all inputs (R15, R67). -/
def respond (cw : CommandWord) (a b : Container) : Response :=
  match (opField cw).toNat with
  | 0x0 => respAdd a b
  | 0x1 => respSub a b
  | 0x2 => respMul a b
  | 0x3 => respDiv a b
  | 0x4 => respShl (shiftAmount cw) a
  | 0x5 => respShr (shiftAmount cw) a
  | 0x6 => respShldiv (shiftAmount cw) a b
  | 0x7 => respCmp a b
  | 0x8 => respFromi16 a
  | 0x9 => respToi32 a
  | 0xA => respFromi32 a
  | 0xB => respToi16 a
  | _ => raise .illegalOp

/-- `fail(cw, a, b)` of R152; `none` is its `OK`. -/
def failureOf (cw : CommandWord) (b : Container) : Option FailCode :=
  let op := (opField cw).toNat
  let n := shiftAmount cw
  if op ≥ 0xC then some .illegalOp
  else if (op = 0x3 ∨ op = 0x6) ∧ low24 b = 0#24 then some .divByZero
  else if (op = 0x4 ∨ op = 0x5 ∨ op = 0x6) ∧ n ≥ 24 then some .shiftRange
  else none

end Sys2Proof.Machine
end

