-- ==== Sys2Proof/Machine/Pins.lean ====
section
/-! DEFINITION. The output ports at the pins: functions of the current inputs alone (spec/10_state.md R25, R36;
spec/70_reset_and_hazards.md R162), `y` carrying no result while `err` is not OK (spec/60_exceptions.md R141). -/

namespace Sys2Proof.Machine

/-- The response to the request on the input ports (R162). -/
def State.portResponse (s : State) : Response := respond s.cw s.a s.b

/-- The output port `err[1:0]` (R25, R136). -/
def State.portErr (s : State) : Status := s.portResponse.err

/-- The output port `y[31:0]` (R25): the result, or an unspecified vector while the request fails (R141;
spec/93_implementation_defined.md U1). Log entry 3. -/
def State.portY (s : State) : Container :=
  match s.portResponse with
  | .ok y => y
  | .fail _ => Config.freeY s.responses.length

end Sys2Proof.Machine
end

