-- ==== Sys2Proof/Machine/Run.lean ====
section
/-! DEFINITION. A run of a program: its transactions in order, until the host has nothing more to present
(spec/70_reset_and_hazards.md R170). -/

namespace Sys2Proof.Machine

/-- The state after at most `fuel` steps, the last one reached before a step that answers no next state. -/
def runUpTo : Nat → State → State
  | 0, s => s
  | fuel + 1, s =>
    match step s with
    | .next s' => runUpTo fuel s'
    | .fault _ => s
    | .refused _ => s

/-- The state in which the run of the program `p`, started in `s`, ends. One step presents one line, so the
length of the program is enough fuel (R170: every run is finite). -/
def runProgram (s : State) (p : List Line) : State := runUpTo p.length (s.load p)

end Sys2Proof.Machine
end

