-- ==== Sys2Proof/Safety.lean ====
section
/-! DEFINITION. What counts as a good run, in the terms claims use: no failed transaction
(spec/70_reset_and_hazards.md R170), and every result within the range of its kind
(spec/10_state.md R23, R29). -/

namespace Sys2Proof.Machine

/-- A container that is the sign extension of its low 24 bits: bits 31 to 23 are nine equal bits (R23, R29). -/
abbrev SignExtended24 (y : Container) : Prop := y = (y.extractLsb' 0 24).signExtend 32

/-- A response whose result, if it has one, is sign-extended from 24 bits. -/
abbrev Response.Canonical : Response → Prop
  | .ok y => SignExtended24 y
  | .fail _ => True

/-- Every recorded result is sign-extended from 24 bits. -/
def State.RecordCanonical (s : State) : Prop := ∀ r ∈ s.responses, r.Canonical

/-- No transaction of the run has failed (R170). -/
def State.NoFailure (s : State) : Prop := ∀ r ∈ s.responses, ∃ y, r = .ok y

/-- The run ended after its last line and no transaction failed: a successful end (R170). -/
def State.Succeeded (s : State) : Prop := s.pending = [] ∧ s.NoFailure

end Sys2Proof.Machine
end

