-- ==== Sys2Proof/Certificates/Slice0/Obligations.lean ====
section
/-! DEFINITION. The statements for the provers, from the numbered rules of spec/. `A` in a docstring is
`S_24(a[23:0])`, `B` is `S_24(b[23:0])` (R14). Each per-instruction statement writes the whole next state, so it
is a frame as well: the ports, the program and the host's policy are unchanged, and the run record has one
response more. -/

open Sys2Proof Sys2Proof.Machine

/-! ### Decoding -/

/-- Encoding and decoding agree on every well-formed instruction (R55, R59, R60). -/
def Obligations.DecodeOfEncodeIsTheInstruction : Prop :=
  ∀ i : Instr, wellFormed i = true → decode (encode i) = i

/-- Re-encoding a decoded word keeps the operation code, keeps `n` where the format reads it, and writes 0
there where it does not; and every word decodes to a well-formed instruction (R56, R61, R63). -/
def Obligations.EncodeOfDecodeKeepsTheBitsRead : Prop :=
  ∀ cw : CommandWord, wellFormed (decode cw) = true ∧
    encode (decode cw) =
      (if cw.extractLsb' 0 4 = 0x4#4 ∨ cw.extractLsb' 0 4 = 0x5#4 ∨ cw.extractLsb' 0 4 = 0x6#4
        then cw else cw &&& 0x00F#9)

/-- Exactly one row of the operation map matches every command word, and it is the row of the decoded
instruction (R59). -/
def Obligations.OneRowMatchesEveryCommandWord : Prop :=
  ∀ cw : CommandWord, ∃ r : Row, rowsOf cw = [r] ∧ r.mask = 0x00F#9 ∧ r.name = mnemonic (decode cw)

/-- Words written out from the patterns of R59 and R60 decode to the instructions they stand for. -/
def Obligations.WrittenWordsDecode : Prop :=
  decode 0b000000000#9 = .add ∧ decode 0b000010001#9 = .sub ∧ decode 0b111110010#9 = .mul ∧
  decode 0b110000011#9 = .div ∧ decode 0b101110100#9 = .shl 23 ∧ decode 0b110000101#9 = .shr 24 ∧
  decode 0b000110110#9 = .shldiv 3 ∧ decode 0b111110111#9 = .cmp ∧ decode 0b000001000#9 = .fromi16 ∧
  decode 0b000001001#9 = .toi32 ∧ decode 0b000001010#9 = .fromi32 ∧ decode 0b000001011#9 = .toi16 ∧
  decode 0b000001100#9 = .reservedC ∧ decode 0b111111101#9 = .reservedD ∧
  decode 0b000001110#9 = .reservedE ∧ decode 0b111111111#9 = .reservedF

/-! ### Arithmetic -/

/-- ADD (R81): the exact sum `A + B`, clamped to `[MIN, MAX]`, for every state. -/
def Obligations.AddIsTheClampedSum : Prop :=
  (∀ cw : CommandWord, cw.extractLsb' 0 4 = 0x0#4 → decode cw = .add) ∧
  ∀ s : State, ∃ y : Container,
    exec .add s = .next { s with responses := s.responses ++ [.ok y] } ∧
    y.toInt = max (-8388608) (min 8388607
      ((s.a.extractLsb' 0 24).toInt + (s.b.extractLsb' 0 24).toInt))

/-- SUB (R82): the exact difference `A - B`, clamped; the negation is the mathematical one. -/
def Obligations.SubIsTheClampedDifference : Prop :=
  (∀ cw : CommandWord, cw.extractLsb' 0 4 = 0x1#4 → decode cw = .sub) ∧
  ∀ s : State, ∃ y : Container,
    exec .sub s = .next { s with responses := s.responses ++ [.ok y] } ∧
    y.toInt = max (-8388608) (min 8388607
      ((s.a.extractLsb' 0 24).toInt - (s.b.extractLsb' 0 24).toInt))

/-- MUL (R83): the exact product `A * B`, clamped. -/
def Obligations.MulIsTheClampedProduct : Prop :=
  (∀ cw : CommandWord, cw.extractLsb' 0 4 = 0x2#4 → decode cw = .mul) ∧
  ∀ s : State, ∃ y : Container,
    exec .mul s = .next { s with responses := s.responses ++ [.ok y] } ∧
    y.toInt = max (-8388608) (min 8388607
      ((s.a.extractLsb' 0 24).toInt * (s.b.extractLsb' 0 24).toInt))

/-- DIV (R84): a zero in `b[23:0]` fails with DIV_BY_ZERO, whatever `a` and `b[31:24]` hold; every other divisor
gives the quotient rounded toward zero, clamped. -/
def Obligations.DivIsTheClampedTruncatedQuotient : Prop :=
  (∀ cw : CommandWord, cw.extractLsb' 0 4 = 0x3#4 → decode cw = .div) ∧
  (∀ s : State, s.b.extractLsb' 0 24 = 0#24 →
    exec .div s = .next { s with responses := s.responses ++ [.fail .divByZero] }) ∧
  ∀ s : State, s.b.extractLsb' 0 24 ≠ 0#24 → ∃ y : Container,
    exec .div s = .next { s with responses := s.responses ++ [.ok y] } ∧
    y.toInt = max (-8388608) (min 8388607
      (Int.tdiv (s.a.extractLsb' 0 24).toInt (s.b.extractLsb' 0 24).toInt))

/-- DIV by remainder (R86): for `B != 0` there is a quotient `q` with `A = q * B + rem`, `|rem| < |B|` and `rem` zero
or of the sign of `A`; every such `q` is the truncated quotient, so there is exactly one; and DIV answers it,
clamped. For `B = 0` DIV fails. -/
def Obligations.DivQuotientIsCharacterisedByItsRemainder : Prop :=
  (∀ s : State, s.b.extractLsb' 0 24 ≠ 0#24 →
    (∃ q rem : Int, (s.a.extractLsb' 0 24).toInt = q * (s.b.extractLsb' 0 24).toInt + rem ∧
      rem.natAbs < (s.b.extractLsb' 0 24).toInt.natAbs ∧
      (rem = 0 ∨ rem.sign = (s.a.extractLsb' 0 24).toInt.sign)) ∧
    ∀ q rem : Int, (s.a.extractLsb' 0 24).toInt = q * (s.b.extractLsb' 0 24).toInt + rem →
      rem.natAbs < (s.b.extractLsb' 0 24).toInt.natAbs →
      (rem = 0 ∨ rem.sign = (s.a.extractLsb' 0 24).toInt.sign) →
      q = Int.tdiv (s.a.extractLsb' 0 24).toInt (s.b.extractLsb' 0 24).toInt ∧
      ∃ y : Container, exec .div s = .next { s with responses := s.responses ++ [.ok y] } ∧
        y.toInt = max (-8388608) (min 8388607 q)) ∧
  ∀ s : State, s.b.extractLsb' 0 24 = 0#24 →
    exec .div s = .next { s with responses := s.responses ++ [.fail .divByZero] }

/-- When each operation saturates (R87): ADD, SUB and MUL give another value than the exact result iff that is
outside `[MIN, MAX]`, and that value is then MAX above the range and MIN below it; DIV, where it succeeds, iff
`A = MIN` and `B = -1`, and then MAX. In every other case the result is exact, a result of MAX or MIN included. -/
def Obligations.SaturationHappensExactlyOutsideTheRange : Prop :=
  ∀ (s : State) (A B : Int), A = (s.a.extractLsb' 0 24).toInt → B = (s.b.extractLsb' 0 24).toInt →
    (∃ y : Container, exec .add s = .next { s with responses := s.responses ++ [.ok y] } ∧
      (y.toInt ≠ A + B ↔ A + B > 8388607 ∨ A + B < -8388608) ∧
      (A + B > 8388607 → y.toInt = 8388607) ∧ (A + B < -8388608 → y.toInt = -8388608)) ∧
    (∃ y : Container, exec .sub s = .next { s with responses := s.responses ++ [.ok y] } ∧
      (y.toInt ≠ A - B ↔ A - B > 8388607 ∨ A - B < -8388608) ∧
      (A - B > 8388607 → y.toInt = 8388607) ∧ (A - B < -8388608 → y.toInt = -8388608)) ∧
    (∃ y : Container, exec .mul s = .next { s with responses := s.responses ++ [.ok y] } ∧
      (y.toInt ≠ A * B ↔ A * B > 8388607 ∨ A * B < -8388608) ∧
      (A * B > 8388607 → y.toInt = 8388607) ∧ (A * B < -8388608 → y.toInt = -8388608)) ∧
    (B ≠ 0 → ∃ y : Container, exec .div s = .next { s with responses := s.responses ++ [.ok y] } ∧
      (y.toInt ≠ Int.tdiv A B ↔ A = -8388608 ∧ B = -1) ∧ (A = -8388608 ∧ B = -1 → y.toInt = 8388607))

/-- SUB is ADD of the negated pattern for every `B != MIN`; for `B = MIN` the result is `A + 8388608` where `A` is
negative and `MAX` elsewhere (spec/40_arithmetic.md section 4). -/
def Obligations.SubIsAddOfTheNegationButForMin : Prop :=
  (∀ s : State, s.b.extractLsb' 0 24 ≠ 0x800000#24 → ∃ r : Response,
    exec .sub s = .next { s with responses := s.responses ++ [r] } ∧
    exec .add { s with b := BitVec.ofInt 32 (-(s.b.extractLsb' 0 24).toInt) } =
      .next { s with
        b := BitVec.ofInt 32 (-(s.b.extractLsb' 0 24).toInt), responses := s.responses ++ [r] }) ∧
  ∀ s : State, s.b.extractLsb' 0 24 = 0x800000#24 → ∃ y : Container,
    exec .sub s = .next { s with responses := s.responses ++ [.ok y] } ∧
    y.toInt = if (s.a.extractLsb' 0 24).toInt < 0 then (s.a.extractLsb' 0 24).toInt + 8388608 else 8388607

/-- The bit-level overflow tests of ADD and SUB on the 24-bit sum and difference modulo `2^24`
(spec/40_arithmetic.md section 4, last bullet). -/
def Obligations.AddSubAgreeWithTheBitLevelOverflowTest : Prop :=
  ∀ (s : State) (x y : Int24), x = s.a.extractLsb' 0 24 → y = s.b.extractLsb' 0 24 →
    exec .add s = .next { s with responses := s.responses ++ [.ok (
      if x.getLsbD 23 = y.getLsbD 23 ∧ (x + y).getLsbD 23 ≠ x.getLsbD 23
      then (if x.getLsbD 23 then 0xFF800000#32 else 0x007FFFFF#32)
      else (x + y).signExtend 32)] } ∧
    exec .sub s = .next { s with responses := s.responses ++ [.ok (
      if x.getLsbD 23 ≠ y.getLsbD 23 ∧ (x - y).getLsbD 23 ≠ x.getLsbD 23
      then (if x.getLsbD 23 then 0xFF800000#32 else 0x007FFFFF#32)
      else (x - y).signExtend 32)] }

/-- The bit-level overflow test of MUL on the 48-bit signed product: it saturates iff `p[47:23]` are not 25
equal bits, toward the side `p[47]` names (spec/40_arithmetic.md section 4, last bullet). -/
def Obligations.MulAgreesWithTheBitLevelOverflowTest : Prop :=
  ∀ (s : State) (p : BitVec 48),
    p = (s.a.extractLsb' 0 24).signExtend 48 * (s.b.extractLsb' 0 24).signExtend 48 →
    exec .mul s = .next { s with responses := s.responses ++ [.ok (
      if p.extractLsb' 23 25 = 0#25 ∨ p.extractLsb' 23 25 = BitVec.allOnes 25
      then (p.extractLsb' 0 24).signExtend 32
      else if p.getLsbD 47 then 0xFF800000#32 else 0x007FFFFF#32)] }

/-! ### Shifts -/

/-- SHL (R101): for `n <= 23` the exact `A * 2^n`, clamped; for `n >= 24` the failure SHIFT_RANGE, whatever `a`
holds. -/
def Obligations.ShlIsTheClampedShiftedValue : Prop :=
  (∀ cw : CommandWord, cw.extractLsb' 0 4 = 0x4#4 → decode cw = .shl (cw.extractLsb' 4 5).toNat) ∧
  (∀ (n : Nat) (s : State), n ≤ 23 → ∃ y : Container,
    exec (.shl n) s = .next { s with responses := s.responses ++ [.ok y] } ∧
    y.toInt = max (-8388608) (min 8388607 ((s.a.extractLsb' 0 24).toInt * 2 ^ n))) ∧
  ∀ (n : Nat) (s : State), 24 ≤ n →
    exec (.shl n) s = .next { s with responses := s.responses ++ [.fail .shiftRange] }

/-- When SHL is exact (R101): iff `-2^(23-n) <= A <= 2^(23-n) - 1`; then the low 24 result bits are
`{a[23-n:0], rep(0, n)}`, and otherwise the result is MAX for `A > 0` and MIN for `A < 0`. -/
def Obligations.ShlIsExactOnItsStatedRange : Prop :=
  ∀ (n : Nat) (s : State) (A : Int), n ≤ 23 → A = (s.a.extractLsb' 0 24).toInt → ∃ y : Container,
    exec (.shl n) s = .next { s with responses := s.responses ++ [.ok y] } ∧
    (y.toInt = A * 2 ^ n ↔ -(2 ^ (23 - n)) ≤ A ∧ A ≤ 2 ^ (23 - n) - 1) ∧
    (y.toInt = A * 2 ^ n → y.extractLsb' 0 24 = (s.a.extractLsb' 0 24) <<< n) ∧
    (y.toInt ≠ A * 2 ^ n → A > 0 → y.toInt = 8388607) ∧
    (y.toInt ≠ A * 2 ^ n → A < 0 → y.toInt = -8388608)

/-- SHR (R102): for `n <= 23` the pattern `{rep(a[23], n), a[23:n]}`, which is `floor(A / 2^n)`; for `n >= 24` the
failure SHIFT_RANGE. -/
def Obligations.ShrIsTheFloorAndCopiesTheSignBit : Prop :=
  (∀ cw : CommandWord, cw.extractLsb' 0 4 = 0x5#4 → decode cw = .shr (cw.extractLsb' 4 5).toNat) ∧
  (∀ (n : Nat) (s : State), n ≤ 23 → ∃ y : Container,
    exec (.shr n) s = .next { s with responses := s.responses ++ [.ok y] } ∧
    y.toInt = Int.fdiv (s.a.extractLsb' 0 24).toInt (2 ^ n) ∧
    ∀ k : Nat, k < 24 → y.getLsbD k = if k + n < 24 then s.a.getLsbD (k + n) else s.a.getLsbD 23) ∧
  ∀ (n : Nat) (s : State), 24 ≤ n →
    exec (.shr n) s = .next { s with responses := s.responses ++ [.fail .shiftRange] }

/-- SHLDIV (R103): a zero divisor fails with DIV_BY_ZERO for every `n`; else `n >= 24` fails with SHIFT_RANGE; else
the exact `A * 2^n` is divided by `B`, rounded toward zero, and only the quotient is clamped. -/
def Obligations.ShldivDividesTheUnclampedShiftedValue : Prop :=
  (∀ cw : CommandWord, cw.extractLsb' 0 4 = 0x6#4 → decode cw = .shldiv (cw.extractLsb' 4 5).toNat) ∧
  (∀ (n : Nat) (s : State), s.b.extractLsb' 0 24 = 0#24 →
    exec (.shldiv n) s = .next { s with responses := s.responses ++ [.fail .divByZero] }) ∧
  (∀ (n : Nat) (s : State), s.b.extractLsb' 0 24 ≠ 0#24 → 24 ≤ n →
    exec (.shldiv n) s = .next { s with responses := s.responses ++ [.fail .shiftRange] }) ∧
  ∀ (n : Nat) (s : State), s.b.extractLsb' 0 24 ≠ 0#24 → n ≤ 23 → ∃ y : Container,
    exec (.shldiv n) s = .next { s with responses := s.responses ++ [.ok y] } ∧
    y.toInt = max (-8388608) (min 8388607
      (Int.tdiv ((s.a.extractLsb' 0 24).toInt * 2 ^ n) (s.b.extractLsb' 0 24).toInt))

/-- SHLDIV is not DIV after SHL (R104): the two agree whenever `A * 2^n` is in `[MIN, MAX]`; they differ wherever
`|B| >= 2` and `A * 2^n` is outside that range by `|B|` or more; and on `(MAX << 1) / 2` the fused one gives MAX
and the two steps 4194303. Nearer to the range, or with `|B| = 1`, they may agree (log entry 20). -/
def Obligations.FusedShiftDivideIsNotTheTwoSteps : Prop :=
  (∀ (n : Nat) (s : State), n ≤ 23 →
    -8388608 ≤ (s.a.extractLsb' 0 24).toInt * 2 ^ n → (s.a.extractLsb' 0 24).toInt * 2 ^ n ≤ 8388607 →
    ∃ (z : Container) (r : Response),
      exec (.shl n) s = .next { s with responses := s.responses ++ [.ok z] } ∧
      exec (.shldiv n) s = .next { s with responses := s.responses ++ [r] } ∧
      exec .div { s with a := z } = .next { s with a := z, responses := s.responses ++ [r] }) ∧
  (∀ (n : Nat) (s : State) (v B : Int), n ≤ 23 →
    v = (s.a.extractLsb' 0 24).toInt * 2 ^ n → B = (s.b.extractLsb' 0 24).toInt → 2 ≤ B.natAbs →
    (8388607 + B.natAbs ≤ v ∨ v ≤ -8388608 - B.natAbs) →
    ∃ y z w : Container,
      exec (.shldiv n) s = .next { s with responses := s.responses ++ [.ok y] } ∧
      exec (.shl n) s = .next { s with responses := s.responses ++ [.ok z] } ∧
      exec .div { s with a := z } = .next { s with a := z, responses := s.responses ++ [.ok w] } ∧ y ≠ w) ∧
  ∀ s : State, s.a.extractLsb' 0 24 = 0x7FFFFF#24 → s.b.extractLsb' 0 24 = 2#24 →
    exec (.shldiv 1) s = .next { s with responses := s.responses ++ [.ok 0x007FFFFF#32] } ∧
    exec (.shl 1) s = .next { s with responses := s.responses ++ [.ok 0x007FFFFF#32] } ∧
    exec .div { s with a := 0x007FFFFF#32 } =
      .next { s with a := 0x007FFFFF#32, responses := s.responses ++ [.ok 0x003FFFFF#32] }

/-- The corner cases of SHLDIV that name other operations (R103): `n = 0` makes it DIV, and a divisor of 1 makes
it SHL, failures included. -/
def Obligations.ShldivByZeroShiftIsDivAndByOneIsShl : Prop :=
  (∀ s : State, exec (.shldiv 0) s = exec .div s) ∧
  ∀ (n : Nat) (s : State), s.b.extractLsb' 0 24 = 1#24 → exec (.shldiv n) s = exec (.shl n) s

/-! ### Comparison -/

/-- CMP (R115): the one-hot code of the order of `A` and `B`: 1 for less, 2 for equal, 4 for greater. -/
def Obligations.CmpIsTheSignedOrder : Prop :=
  (∀ cw : CommandWord, cw.extractLsb' 0 4 = 0x7#4 → decode cw = .cmp) ∧
  ∀ s : State, ∃ y : Container,
    exec .cmp s = .next { s with responses := s.responses ++ [.ok y] } ∧
    y = if (s.a.extractLsb' 0 24).toInt < (s.b.extractLsb' 0 24).toInt then 1#32
      else if (s.a.extractLsb' 0 24).toInt = (s.b.extractLsb' 0 24).toInt then 2#32 else 4#32

/-- The order laws of CMP (R116), in terms of its results on any three containers: exactly one of the three
codes, `lt` one way iff `gt` the other way, `eq` iff the low 24 bits are equal, and `lt` transitive. -/
def Obligations.CmpIsAStrictTotalOrder : Prop :=
  ∃ c : Container → Container → Container,
    (∀ s : State, exec .cmp s = .next { s with responses := s.responses ++ [.ok (c s.a s.b)] }) ∧
    (∀ x y, c x y = 1#32 ∨ c x y = 2#32 ∨ c x y = 4#32) ∧
    (∀ x y, c x y = 1#32 ↔ c y x = 4#32) ∧
    (∀ x y, c x y = 2#32 ↔ x.extractLsb' 0 24 = y.extractLsb' 0 24) ∧
    (∀ x, c x x = 2#32) ∧
    ∀ x y z, c x y = 1#32 → c y z = 1#32 → c x z = 1#32

/-- CMP agrees with the arithmetic (R117): on the results `s.a`, `s.b` of any two transactions it reports `lt` iff
`S_32` of the first is less; and on all containers it agrees with the unsigned comparison of the patterns with
bit 23 inverted. -/
def Obligations.CmpOrdersResultsByTheirValue : Prop :=
  (∀ (i j : Instr) (u v s : State),
    exec i u = .next { u with responses := u.responses ++ [.ok s.a] } →
    exec j v = .next { v with responses := v.responses ++ [.ok s.b] } → ∃ y : Container,
      exec .cmp s = .next { s with responses := s.responses ++ [.ok y] } ∧
      (y = 1#32 ↔ s.a.toInt < s.b.toInt)) ∧
  ∀ s : State, ∃ y : Container,
    exec .cmp s = .next { s with responses := s.responses ++ [.ok y] } ∧
    (y = 1#32 ↔ (s.a.extractLsb' 0 24 ^^^ 0x800000#24).toNat < (s.b.extractLsb' 0 24 ^^^ 0x800000#24).toNat)

/-! ### Conversions -/

/-- FROMI16 (R120): the value of `a[15:0]`, exact; the low 24 result bits are its sign extension to 24 bits and the
upper 8 are copies of `a[15]`. -/
def Obligations.Fromi16IsExact : Prop :=
  (∀ cw : CommandWord, cw.extractLsb' 0 4 = 0x8#4 → decode cw = .fromi16) ∧
  ∀ s : State, ∃ y : Container,
    exec .fromi16 s = .next { s with responses := s.responses ++ [.ok y] } ∧
    y.toInt = (s.a.extractLsb' 0 16).toInt ∧
    y.extractLsb' 0 24 = (s.a.extractLsb' 0 16).signExtend 24 ∧
    ∀ k : Nat, 24 ≤ k → k < 32 → y.getLsbD k = s.a.getLsbD 15

/-- TOI32 (R121): the sign extension of `a[23:0]`, whose value is `A`; `a[31:24]` is replaced. A container that is
sign-extended already is returned unchanged. -/
def Obligations.Toi32ReplicatesBit23 : Prop :=
  (∀ cw : CommandWord, cw.extractLsb' 0 4 = 0x9#4 → decode cw = .toi32) ∧
  (∀ s : State, ∃ y : Container,
    exec .toi32 s = .next { s with responses := s.responses ++ [.ok y] } ∧
    y.toInt = (s.a.extractLsb' 0 24).toInt ∧
    ∀ k : Nat, k < 32 → y.getLsbD k = if k < 24 then s.a.getLsbD k else s.a.getLsbD 23) ∧
  ∀ s : State, SignExtended24 s.a →
    exec .toi32 s = .next { s with responses := s.responses ++ [.ok s.a] }

/-- FROMI32 (R122): the value of all 32 bits of `a`, clamped to `[MIN, MAX]`. -/
def Obligations.Fromi32IsTheClampedValue : Prop :=
  (∀ cw : CommandWord, cw.extractLsb' 0 4 = 0xA#4 → decode cw = .fromi32) ∧
  ∀ s : State, ∃ y : Container,
    exec .fromi32 s = .next { s with responses := s.responses ++ [.ok y] } ∧
    y.toInt = max (-8388608) (min 8388607 s.a.toInt)

/-- TOI16 (R123): `A` clamped to `[-32768, 32767]`. -/
def Obligations.Toi16IsTheClampedValue : Prop :=
  (∀ cw : CommandWord, cw.extractLsb' 0 4 = 0xB#4 → decode cw = .toi16) ∧
  ∀ s : State, ∃ y : Container,
    exec .toi16 s = .next { s with responses := s.responses ++ [.ok y] } ∧
    y.toInt = max (-32768) (min 32767 (s.a.extractLsb' 0 24).toInt)

/-- The in-range tests on bits of the narrowing conversions (R122, R123): FROMI32 is exact iff `a[31:23]` are nine
equal bits, TOI16 iff `a[23:15]` are; otherwise the bound of the operand's sign. -/
def Obligations.NarrowingAgreesWithTheBitTests : Prop :=
  ∀ s : State,
    exec .fromi32 s = .next { s with responses := s.responses ++ [.ok (
      if s.a.extractLsb' 23 9 = 0#9 ∨ s.a.extractLsb' 23 9 = BitVec.allOnes 9 then s.a
      else if s.a.getLsbD 31 then 0xFF800000#32 else 0x007FFFFF#32)] } ∧
    exec .toi16 s = .next { s with responses := s.responses ++ [.ok (
      if s.a.extractLsb' 15 9 = 0#9 ∨ s.a.extractLsb' 15 9 = BitVec.allOnes 9
      then (s.a.extractLsb' 0 16).signExtend 32
      else if s.a.getLsbD 23 then 0xFFFF8000#32 else 0x00007FFF#32)] }

/-- The round trips of the conversions (R124): each pair of conversions run one after the other, the second on
the first's result. -/
def Obligations.ConversionRoundTrips : Prop :=
  ∀ s : State,
    (∃ y z : Container, exec .fromi16 s = .next { s with responses := s.responses ++ [.ok y] } ∧
      exec .toi32 { s with a := y } = .next { s with a := y, responses := s.responses ++ [.ok z] } ∧
      z.toInt = (s.a.extractLsb' 0 16).toInt) ∧
    (∃ y z : Container, exec .fromi16 s = .next { s with responses := s.responses ++ [.ok y] } ∧
      exec .toi16 { s with a := y } = .next { s with a := y, responses := s.responses ++ [.ok z] } ∧
      z.toInt = (s.a.extractLsb' 0 16).toInt) ∧
    (∃ y z : Container, exec .toi32 s = .next { s with responses := s.responses ++ [.ok y] } ∧
      exec .fromi32 { s with a := y } = .next { s with a := y, responses := s.responses ++ [.ok z] } ∧
      z.toInt = (s.a.extractLsb' 0 24).toInt) ∧
    (∃ y z : Container, exec .fromi32 s = .next { s with responses := s.responses ++ [.ok y] } ∧
      exec .toi32 { s with a := y } = .next { s with a := y, responses := s.responses ++ [.ok z] } ∧
      z.toInt = max (-8388608) (min 8388607 s.a.toInt)) ∧
    (∃ y z : Container, exec .toi16 s = .next { s with responses := s.responses ++ [.ok y] } ∧
      exec .fromi16 { s with a := y } = .next { s with a := y, responses := s.responses ++ [.ok z] } ∧
      z.toInt = max (-32768) (min 32767 (s.a.extractLsb' 0 24).toInt))

/-- The ranges of the conversions' results on bits (R125): `y[31:15]` are seventeen equal bits for FROMI16 and
TOI16, with values in `[-32768, 32767]`; `y[31:23]` nine equal bits for TOI32 and FROMI32, with values in
`[MIN, MAX]`. -/
def Obligations.ConversionResultsHaveEqualTopBits : Prop :=
  ∀ (s : State) (i : Instr), i = .fromi16 ∨ i = .toi16 ∨ i = .toi32 ∨ i = .fromi32 → ∃ y : Container,
    exec i s = .next { s with responses := s.responses ++ [.ok y] } ∧
    -8388608 ≤ y.toInt ∧ y.toInt ≤ 8388607 ∧
    (∀ k : Nat, 23 ≤ k → k < 32 → y.getLsbD k = y.getLsbD 31) ∧
    (i = .fromi16 ∨ i = .toi16 → -32768 ≤ y.toInt ∧ y.toInt ≤ 32767 ∧
      ∀ k : Nat, 15 ≤ k → k < 32 → y.getLsbD k = y.getLsbD 31)

/-! ### Failures -/

/-- The reserved codes (R60): each of the four fails with ILLEGAL_OP in every state, and returns no result. -/
def Obligations.ReservedCodesFailAlways : Prop :=
  (∀ cw : CommandWord, cw.extractLsb' 0 4 = 0xC#4 → decode cw = .reservedC) ∧
  (∀ cw : CommandWord, cw.extractLsb' 0 4 = 0xD#4 → decode cw = .reservedD) ∧
  (∀ cw : CommandWord, cw.extractLsb' 0 4 = 0xE#4 → decode cw = .reservedE) ∧
  (∀ cw : CommandWord, cw.extractLsb' 0 4 = 0xF#4 → decode cw = .reservedF) ∧
  ∀ s : State,
    exec .reservedC s = .next { s with responses := s.responses ++ [.fail .illegalOp] } ∧
    exec .reservedD s = .next { s with responses := s.responses ++ [.fail .illegalOp] } ∧
    exec .reservedE s = .next { s with responses := s.responses ++ [.fail .illegalOp] } ∧
    exec .reservedF s = .next { s with responses := s.responses ++ [.fail .illegalOp] }

/-- The failure behaviour in one function (R152): the status code of every request, by the operation code, the
zero test of `b[23:0]` and the shift amount alone, in the order of R142. -/
def Obligations.StatusFollowsTheFailureFunction : Prop :=
  ∀ s : State, ∃ r : Response,
    exec (decode s.cw) s = .next { s with responses := s.responses ++ [r] } ∧
    r.err =
      if 12 ≤ (s.cw.extractLsb' 0 4).toNat then 0b11#2
      else if (s.cw.extractLsb' 0 4 = 0x3#4 ∨ s.cw.extractLsb' 0 4 = 0x6#4) ∧
        s.b.extractLsb' 0 24 = 0#24 then 0b01#2
      else if (s.cw.extractLsb' 0 4 = 0x4#4 ∨ s.cw.extractLsb' 0 4 = 0x5#4 ∨
        s.cw.extractLsb' 0 4 = 0x6#4) ∧ 24 ≤ (s.cw.extractLsb' 4 5).toNat then 0b10#2
      else 0b00#2

/-- The operations that can never fail, and the only failures of the others (R140). -/
def Obligations.OnlyTheStatedOperationsFail : Prop :=
  ∀ s : State,
    (∀ i : Instr, i = .add ∨ i = .sub ∨ i = .mul ∨ i = .cmp ∨ i = .fromi16 ∨ i = .toi32 ∨ i = .fromi32 ∨
      i = .toi16 → ∃ y, exec i s = .next { s with responses := s.responses ++ [.ok y] }) ∧
    (∀ c : FailCode, exec .div s = .next { s with responses := s.responses ++ [.fail c] } →
      c = .divByZero) ∧
    (∀ (n : Nat) (c : FailCode), exec (.shl n) s = .next { s with responses := s.responses ++ [.fail c] } ∨
      exec (.shr n) s = .next { s with responses := s.responses ++ [.fail c] } → c = .shiftRange) ∧
    ∀ (n : Nat) (c : FailCode), exec (.shldiv n) s = .next { s with responses := s.responses ++ [.fail c] } →
      c = .divByZero ∨ c = .shiftRange

/-- The one real coincidence of failures (R142): SHLDIV with `b[23:0] = 0` and `n >= 24` reports DIV_BY_ZERO. -/
def Obligations.ZeroDivisorGoesBeforeShiftRange : Prop :=
  ∀ (n : Nat) (s : State), s.b.extractLsb' 0 24 = 0#24 → 24 ≤ n →
    exec (.shldiv n) s = .next { s with responses := s.responses ++ [.fail .divByZero] }

/-- Each failure has exactly the causes of its rule (R137, R138, R139): an instruction answers DIV_BY_ZERO iff it
is DIV or SHLDIV and `b[23:0]` is zero; SHIFT_RANGE iff it is SHL, SHR or SHLDIV with `n >= 24`, and for SHLDIV
`b[23:0]` is not zero; ILLEGAL_OP iff it is a reserved code. -/
def Obligations.EachFailureHasExactlyItsCauses : Prop :=
  ∀ (i : Instr) (s : State),
    (exec i s = .next { s with responses := s.responses ++ [.fail .divByZero] } ↔
      (i = .div ∨ ∃ n, i = .shldiv n) ∧ s.b.extractLsb' 0 24 = 0#24) ∧
    (exec i s = .next { s with responses := s.responses ++ [.fail .shiftRange] } ↔
      ∃ n, 24 ≤ n ∧ (i = .shl n ∨ i = .shr n ∨ (i = .shldiv n ∧ s.b.extractLsb' 0 24 ≠ 0#24))) ∧
    (exec i s = .next { s with responses := s.responses ++ [.fail .illegalOp] } ↔
      i = .reservedC ∨ i = .reservedD ∨ i = .reservedE ∨ i = .reservedF)

/-! ### The core as a function -/

/-- The range invariant on one transaction (R23, R88): every result lies in `[MIN, MAX]`, with `y[31:23]` nine
equal bits. -/
def Obligations.EveryResultLiesInTheRange : Prop :=
  ∀ (i : Instr) (s : State) (y : Container),
    exec i s = .next { s with responses := s.responses ++ [.ok y] } →
    -8388608 ≤ y.toInt ∧ y.toInt ≤ 8388607 ∧ ∀ k : Nat, 23 ≤ k → k < 32 → y.getLsbD k = y.getLsbD 31

/-- Every command word is answered as the function `F` of R67 says, and nothing but the record changes (R168). -/
def Obligations.ExecOfDecodeIsTheTopLevelFunction : Prop :=
  ∀ s : State, exec (decode s.cw) s =
    .next { s with responses := s.responses ++ [respond s.cw s.a s.b] }

/-- Ignored inputs (R57): two states that agree on the bits of `a` and `b` the operation's format reads (R56) get
the same response, whatever else they hold, the whole run record included (R47); and two command words that
agree on the bits their operation reads decode alike. -/
def Obligations.ResponsesDependOnlyOnTheBitsRead : Prop :=
  (∀ (i : Instr) (s t : State),
    (∀ k : Nat, k < readWidthA i → s.a.getLsbD k = t.a.getLsbD k) →
    (∀ k : Nat, k < readWidthB i → s.b.getLsbD k = t.b.getLsbD k) →
    ∃ r : Response, exec i s = .next { s with responses := s.responses ++ [r] } ∧
      exec i t = .next { t with responses := t.responses ++ [r] }) ∧
  ∀ v w : CommandWord, v &&& readMaskCw (decode v) = w &&& readMaskCw (decode v) → decode v = decode w

/-- The unit-level view (R69): each unit, with exact-width ports, is the corresponding arm with the containers
stripped. -/
def Obligations.UnitsAreTheArmsWithoutContainers : Prop :=
  ∀ (s : State) (x y : Int24) (n : ShiftField), x = s.a.extractLsb' 0 24 → y = s.b.extractLsb' 0 24 →
    exec .add s = .next { s with responses := s.responses ++ [.ok ((add24 x y).signExtend 32)] } ∧
    exec .sub s = .next { s with responses := s.responses ++ [.ok ((sub24 x y).signExtend 32)] } ∧
    exec .mul s = .next { s with responses := s.responses ++ [.ok ((mul24 x y).signExtend 32)] } ∧
    exec .div s = .next { s with responses := s.responses ++ [match div24 x y with
      | .ok q => .ok (q.signExtend 32)
      | .error c => .fail c] } ∧
    exec (.shl n.toNat) s = .next { s with responses := s.responses ++ [match shl24 x n with
      | .ok q => .ok (q.signExtend 32)
      | .error c => .fail c] } ∧
    exec (.shr n.toNat) s = .next { s with responses := s.responses ++ [match shr24 x n with
      | .ok q => .ok (q.signExtend 32)
      | .error c => .fail c] } ∧
    exec (.shldiv n.toNat) s = .next { s with responses := s.responses ++ [match shldiv24 x n y with
      | .ok q => .ok (q.signExtend 32)
      | .error c => .fail c] } ∧
    exec .cmp s = .next { s with responses := s.responses ++ [.ok ((cmp24 x y).setWidth 32)] } ∧
    exec .fromi16 s = .next { s with
      responses := s.responses ++ [.ok ((sext16to24 (s.a.extractLsb' 0 16)).signExtend 32)] } ∧
    exec .toi32 s = .next { s with responses := s.responses ++ [.ok (sext24to32 x)] } ∧
    exec .fromi32 s = .next { s with responses := s.responses ++ [.ok ((sat32to24 s.a).signExtend 32)] } ∧
    exec .toi16 s = .next { s with responses := s.responses ++ [.ok ((sat24to16 x).signExtend 32)] }

/-! ### The step and the host level -/

/-- A step runs the decoded instruction (R168, R169): where the host has not stopped and the next line's operands
have values, the step is `exec` of the decoded command word in the state with that request on the ports and the
line taken off the program. -/
def Obligations.StepRunsTheDecodedInstruction : Prop :=
  ∀ (s : State) (l : Line) (rest : List Line) (a b : Container),
    (s.onFailure = .goOn ∨ ∀ r ∈ s.responses, ∃ y, r = .ok y) →
    s.pending = l :: rest → s.operand l.a = some a → s.operand l.b = some b →
    step s = exec (decode l.cw) { s with cw := l.cw, a := a, b := b, pending := rest }

/-- A step that answers a next state is one transaction (R168): one line is consumed, its request is on the
ports, and the response of `F` to that request is recorded; nothing else changes. -/
def Obligations.NextStepIsOneTransaction : Prop :=
  ∀ s t : State, step s = .next t → ∃ (l : Line) (rest : List Line) (a b : Container),
    s.pending = l :: rest ∧ s.operand l.a = some a ∧ s.operand l.b = some b ∧
    t = { cw := l.cw, a := a, b := b, pending := rest,
          responses := s.responses ++ [respond l.cw a b], onFailure := s.onFailure }

/-- Nothing the host can present is refused (R172): every request of literal bit patterns is answered, by `F`,
unless the host itself has stopped. -/
def Obligations.EveryLiteralRequestIsAnswered : Prop :=
  ∀ (s : State) (cw : CommandWord) (a b : Container) (rest : List Line),
    (s.onFailure = .goOn ∨ ∀ r ∈ s.responses, ∃ y, r = .ok y) →
    s.pending = ⟨cw, .lit a, .lit b⟩ :: rest →
    step s = .next { s with cw := cw, a := a, b := b, pending := rest,
                            responses := s.responses ++ [respond cw a b] }

/-- A failure is not sticky (R145): executing any instruction after a failed transaction gives the response it
gives without it. -/
def Obligations.FailureIsNotSticky : Prop :=
  ∀ (i : Instr) (s : State) (c : FailCode), ∃ r : Response,
    exec i s = .next { s with responses := s.responses ++ [r] } ∧
    exec i { s with responses := s.responses ++ [.fail c] } =
      .next { s with responses := s.responses ++ [.fail c] ++ [r] }

/-- The host stops at the first failure (R170): under the policy `stop`, a record whose first failure is that of
line `t<k>` makes the step end as "failed at t<k> with code". That a host has this policy is log entry 7; that the
k-th response is that of line `t<k>` is log entry 6. -/
def Obligations.HostStopsAtTheFirstFailure : Prop :=
  ∀ (s : State) (pre post : List Response) (c : FailCode), s.onFailure = .stop →
    s.responses = pre ++ .fail c :: post → (∀ r ∈ pre, ∃ y, r = .ok y) →
    step s = .fault (.failedAt (pre.length + 1) c) ∧ s.runEnd = some (.failed (pre.length + 1) c)

/-- A line that uses `r<k>` before `t<k>` or after a failed `t<k>` is ill-formed and is not presented (R169). The
refusal that says so is the model's, log entry 9. That there is no `r0` (the clause `k = 0`), and that `t<k>` is the
k-th line presented, is the model's reading, log entry 6. -/
def Obligations.LineWithoutItsOperandIsNotPresented : Prop :=
  ∀ (s : State) (l : Line) (rest : List Line) (k : Nat),
    (s.onFailure = .goOn ∨ ∀ r ∈ s.responses, ∃ y, r = .ok y) →
    s.pending = l :: rest → (l.a = .ref k ∨ l.b = .ref k) →
    (k = 0 ∨ s.responses.length < k ∨ ∃ c, s.responses[k - 1]? = some (.fail c)) →
    step s = .refused (.illFormedLine (s.responses.length + 1))

/-- Host variables are written once and never change (R169): a step writes `r<k>` only for the line it presents,
with that line's result or with nothing. That the line presented is `t<k>` for `k` one more than the number of
recorded responses is log entry 6. -/
def Obligations.HostVariablesAreWrittenOnce : Prop :=
  ∀ s t : State, step s = .next t →
    (∀ k : Nat, k ≠ s.responses.length + 1 → t.hostVar k = s.hostVar k) ∧
    s.hostVar (s.responses.length + 1) = none ∧
    t.hostVar (s.responses.length + 1) = (respond t.cw t.a t.b).result?

/-- The pins while the request of a completed step is still on the input ports (R162, R136): `err` shows the code of
the recorded response, and `y` its result when there is one. Nothing is said of `y` on a failure (R141). That the
request stays on the ports after the host has sampled the response is the model's choice, log entry 19. -/
def Obligations.PinsShowTheRecordedResponse : Prop :=
  ∀ s t : State, step s = .next t → ∃ r : Response, t.responses = s.responses ++ [r] ∧
    (∀ y, r = .ok y → t.portErr = 0b00#2 ∧ t.portY = y) ∧
    (r = .fail .divByZero → t.portErr = 0b01#2) ∧
    (r = .fail .shiftRange → t.portErr = 0b10#2) ∧
    (r = .fail .illegalOp → t.portErr = 0b11#2)

/-- Range invariant (R23, R29): every step from a state whose recorded results are all sign-extended from 24 bits
leads to such a state. -/
def Obligations.StepKeepsTheRecordCanonical : Prop :=
  ∀ s t : State, s.RecordCanonical → step s = .next t → t.RecordCanonical

/-- The range invariant holds at reset. -/
def Obligations.ResetRecordIsCanonical : Prop := State.reset.RecordCanonical

/-- References stay references to earlier lines: every step keeps what is pending a well-formed rest of a
program (R169). That the next line is `t<k>` for `k` one more than the number of recorded responses, and that there is
no `r0`, is the model's reading, log entry 6. -/
def Obligations.StepKeepsTheProgramWellFormed : Prop :=
  ∀ s t : State, programWellFormed (s.responses.length + 1) s.pending = true → step s = .next t →
    programWellFormed (t.responses.length + 1) t.pending = true

/-- Every run of a well-formed program ends (R170), under the policy `stop` (log entry 7; line numbers: log entry
6): after the last line with every transaction succeeded, or at its first failure, the response of which is the
last one recorded. -/
def Obligations.RunOfAWellFormedProgramEnds : Prop :=
  ∀ (s : State) (p : List Line), s.onFailure = .stop → programWellFormed 1 p = true →
    ((runProgram s p).Succeeded ∧ (runProgram s p).responses.length = p.length ∧
      (runProgram s p).runEnd = some (.finished ((runProgram s p).responses.map Response.result?))) ∨
    ∃ (pre : List Response) (c : FailCode), (runProgram s p).responses = pre ++ [.fail c] ∧
      (∀ r ∈ pre, ∃ y, r = .ok y) ∧ (runProgram s p).runEnd = some (.failed (pre.length + 1) c)

/-- A command word placed where the step takes its request runs as the very next step, on the values the ports
carry, from every state (log entry 18). -/
def Obligations.FetchWordRunsNext : Prop :=
  ∀ (s : State) (nbits w : Nat), w < 512 → ∃ policy : FailurePolicy,
    step (s.withFetchWord nbits w) =
      exec (decode (BitVec.ofNat 9 w))
        { s with cw := BitVec.ofNat 9 w, pending := s.pending.tail, onFailure := policy } ∧
    decodeTableWord nbits w = some (decode (BitVec.ofNat 9 w))

/-- The state before the first transaction (R160, R161): nothing recorded, no host variable holds a value, and,
the model's choice of log entries 5 and 8, no program, so that a step presents nothing. -/
def Obligations.ResetHasNothingRecorded : Prop :=
  State.reset.responses = [] ∧ (∀ k : Nat, State.reset.hostVar k = none) ∧
  step State.reset = .fault .runEnded
end

