-- ==== Sys2Proof/Laws/Decode.lean ====
section
/-! SUPPORT. The fields of a word made of two fields (spec/30_encoding.md R55). -/

namespace Sys2Proof

/-- The operation code of a word `{n, op}`. -/
theorem opField_append (n : ShiftField) (op : OpCode) : opField (n ++ op) = op := by
  apply BitVec.eq_of_toNat_eq
  have hop := op.isLt
  simp only [opField, BitVec.extractLsb'_toNat, BitVec.toNat_append, Nat.shiftLeft_eq]
  rw [← Nat.shiftLeft_eq, ← Nat.shiftLeft_add_eq_or_of_lt hop, Nat.shiftLeft_eq]
  omega

/-- The shift amount of a word `{n, op}`. -/
theorem shiftField_append (n : ShiftField) (op : OpCode) : shiftField (n ++ op) = n := by
  apply BitVec.eq_of_toNat_eq
  have hop := op.isLt
  have hn := n.isLt
  simp only [shiftField, BitVec.extractLsb'_toNat, BitVec.toNat_append, Nat.shiftLeft_eq]
  rw [← Nat.shiftLeft_eq, ← Nat.shiftLeft_add_eq_or_of_lt hop, Nat.shiftLeft_eq, Nat.shiftRight_eq_div_pow]
  omega

/-- A shift amount the field can carry is read back from it. -/
theorem shiftAmount_append (n : Nat) (op : OpCode) (h : shiftEncodable n = true) :
    shiftAmount (BitVec.ofNat 5 n ++ op) = n := by
  have hn : n < 32 := by simpa [shiftEncodable, Config.N_W] using h
  rw [shiftAmount, shiftField_append, BitVec.toNat_ofNat]
  omega

/-- A decoded shift amount is one the field can carry. -/
theorem shiftAmount_lt (cw : CommandWord) : shiftAmount cw < 32 := (shiftField cw).isLt

end Sys2Proof
end

