-- ==== Sys2Proof/Laws/Operands.lean ====
section
/-! SUPPORT. The laws of reading operands, clamping, dividing and encoding results, which the laws of the
instructions cite instead of unfolding them. -/

namespace Sys2Proof.Machine

theorem int24_ge_min (c : Container) : Config.MIN ≤ int24 c := by
  have h := BitVec.le_toInt (low24 c)
  simpa [int24] using h

theorem int24_le_max (c : Container) : int24 c ≤ Config.MAX := by
  have h := BitVec.toInt_lt (x := low24 c)
  have : int24 c < 8388608 := by simpa [int24] using h
  simp only [Config.MAX]
  omega

theorem int16_ge_min (c : Container) : Config.I16_MIN ≤ int16 c := by
  have h := BitVec.le_toInt (low16 c)
  simpa [int16] using h

theorem int16_le_max (c : Container) : int16 c ≤ Config.I16_MAX := by
  have h := BitVec.toInt_lt (x := low16 c)
  have : int16 c < 32768 := by simpa [int16] using h
  simp only [Config.I16_MAX]
  omega

/-- A zero operand is a zero pattern (R137). -/
theorem int24_eq_zero_iff (c : Container) : int24 c = 0 ↔ low24 c = 0#24 := by
  constructor
  · intro h
    exact BitVec.eq_of_toInt_eq (by simpa [int24] using h)
  · intro h
    simp [int24, h]

/-- The clamp as a minimum and a maximum. -/
theorem clamp24_eq (v : Int) : clamp24 v = max (-8388608) (min 8388607 v) := by
  unfold clamp24 clamp
  simp only [Config.MIN, Config.MAX]
  split <;> [skip; split] <;> omega

theorem clamp16_eq (v : Int) : clamp16 v = max (-32768) (min 32767 v) := by
  unfold clamp16 clamp
  simp only [Config.I16_MIN, Config.I16_MAX]
  split <;> [skip; split] <;> omega

theorem clamp24_ge_min (v : Int) : Config.MIN ≤ clamp24 v := by
  rw [clamp24_eq]
  simp only [Config.MIN]
  omega

theorem clamp24_le_max (v : Int) : clamp24 v ≤ Config.MAX := by
  rw [clamp24_eq]
  simp only [Config.MAX]
  omega

theorem clamp24_of_mem (v : Int) (lo : Config.MIN ≤ v) (hi : v ≤ Config.MAX) : clamp24 v = v := by
  rw [clamp24_eq]
  simp only [Config.MIN, Config.MAX] at *
  omega

/-- Encoding in 32 bits is exact on the range of a 32-bit integer (R10). -/
theorem enc32_toInt (v : Int) (lo : Config.I32_MIN ≤ v) (hi : v ≤ Config.I32_MAX) :
    (enc32 v).toInt = v := by
  unfold enc32
  rw [BitVec.toInt_ofInt]
  exact Int.bmod_eq_of_le (by simpa using lo) (by simp only [Config.I32_MAX] at hi; omega)

/-- A clamped result is encoded exactly (R29: `S_32(y) = r`). -/
theorem enc32_clamp24_toInt (v : Int) : (enc32 (clamp24 v)).toInt = max (-8388608) (min 8388607 v) := by
  rw [enc32_toInt, clamp24_eq]
  · exact Int.le_trans (by decide) (clamp24_ge_min v)
  · exact Int.le_trans (clamp24_le_max v) (by decide)

theorem enc32_clamp16_toInt (v : Int) : (enc32 (clamp16 v)).toInt = max (-32768) (min 32767 v) := by
  rw [enc32_toInt, clamp16_eq] <;> rw [clamp16_eq] <;> simp only [Config.I32_MIN, Config.I32_MAX] <;> omega

/-- The sign of a natural number times a natural number that is zero with it. -/
theorem sign_natCast_mul (n q : Nat) (h : n = 0 → q = 0) : (n : Int).sign * (q : Int) = q := by
  rcases Nat.eq_zero_or_pos n with hn | hn
  · simp [h hn]
  · rw [Int.sign_eq_one_of_pos (by omega), Int.one_mul]

/-- The spec's formula for the truncating quotient is the library's (R13). -/
theorem tdiv_eq (x d : Int) : tdiv x d = Int.tdiv x d := by
  have key (m n : Nat) : (m : Int).sign * (n : Int).sign * ((m / n : Nat) : Int) = ((m / n : Nat) : Int) := by
    rw [Int.mul_assoc, sign_natCast_mul n _ (fun h => by simp [h]),
      sign_natCast_mul m _ (fun h => by simp [h])]
  unfold tdiv
  obtain ⟨m, rfl | rfl⟩ := Int.eq_nat_or_neg x <;> obtain ⟨n, rfl | rfl⟩ := Int.eq_nat_or_neg d <;>
    simp only [Int.natAbs_neg, Int.natAbs_natCast, Int.sign_neg, Int.neg_mul, Int.mul_neg, Int.neg_neg,
      Int.neg_tdiv, Int.tdiv_neg, key] <;> rfl

/-- A container whose value fits 24 bits is the sign extension of its low 24 bits (R23). -/
theorem signExtended24_of_range (y : Container) (lo : Config.MIN ≤ y.toInt) (hi : y.toInt ≤ Config.MAX) :
    SignExtended24 y := by
  apply BitVec.eq_of_toInt_eq
  have hy := y.isLt
  have hl : (y.extractLsb' 0 24).toNat = y.toNat % 2 ^ 24 := by
    simp [BitVec.extractLsb'_toNat]
  rw [BitVec.toInt_signExtend_of_le (by decide)]
  simp only [BitVec.toInt_eq_toNat_cond, hl, Config.MIN, Config.MAX] at *
  split at lo <;> split <;> omega

/-- What a sign-extended container reads as. -/
theorem int24_of_signExtended24 (y : Container) (h : SignExtended24 y) : int24 y = y.toInt := by
  rw [h, BitVec.toInt_signExtend_of_le (by decide), ← h]
  rfl

end Sys2Proof.Machine
end

