-- ==== Sys2Proof/Laws/State.lean ====
section
/-! SUPPORT. One lemma per field per update of State, and the fields of the reset state. -/

namespace Sys2Proof.Machine

@[simp] theorem record_cw (s : State) (r : Response) : (s.record r).cw = s.cw := rfl
@[simp] theorem record_a (s : State) (r : Response) : (s.record r).a = s.a := rfl
@[simp] theorem record_b (s : State) (r : Response) : (s.record r).b = s.b := rfl
@[simp] theorem record_pending (s : State) (r : Response) : (s.record r).pending = s.pending := rfl
@[simp] theorem record_onFailure (s : State) (r : Response) : (s.record r).onFailure = s.onFailure := rfl
@[simp] theorem record_responses (s : State) (r : Response) :
    (s.record r).responses = s.responses ++ [r] := rfl

@[simp] theorem drive_cw (s : State) (cw : CommandWord) (a b : Container) (p : List Line) :
    (s.drive cw a b p).cw = cw := rfl
@[simp] theorem drive_a (s : State) (cw : CommandWord) (a b : Container) (p : List Line) :
    (s.drive cw a b p).a = a := rfl
@[simp] theorem drive_b (s : State) (cw : CommandWord) (a b : Container) (p : List Line) :
    (s.drive cw a b p).b = b := rfl
@[simp] theorem drive_pending (s : State) (cw : CommandWord) (a b : Container) (p : List Line) :
    (s.drive cw a b p).pending = p := rfl
@[simp] theorem drive_responses (s : State) (cw : CommandWord) (a b : Container) (p : List Line) :
    (s.drive cw a b p).responses = s.responses := rfl
@[simp] theorem drive_onFailure (s : State) (cw : CommandWord) (a b : Container) (p : List Line) :
    (s.drive cw a b p).onFailure = s.onFailure := rfl

@[simp] theorem load_cw (s : State) (p : List Line) : (s.load p).cw = s.cw := rfl
@[simp] theorem load_a (s : State) (p : List Line) : (s.load p).a = s.a := rfl
@[simp] theorem load_b (s : State) (p : List Line) : (s.load p).b = s.b := rfl
@[simp] theorem load_pending (s : State) (p : List Line) : (s.load p).pending = p := rfl
@[simp] theorem load_responses (s : State) (p : List Line) : (s.load p).responses = [] := rfl
@[simp] theorem load_onFailure (s : State) (p : List Line) : (s.load p).onFailure = s.onFailure := rfl

@[simp] theorem loadWord_cw (s : State) (w : Nat) : (s.loadWord w).cw = s.cw := rfl
@[simp] theorem loadWord_a (s : State) (w : Nat) : (s.loadWord w).a = s.a := rfl
@[simp] theorem loadWord_b (s : State) (w : Nat) : (s.loadWord w).b = s.b := rfl
@[simp] theorem loadWord_responses (s : State) (w : Nat) : (s.loadWord w).responses = s.responses := rfl
@[simp] theorem loadWord_pending (s : State) (w : Nat) :
    (s.loadWord w).pending = ⟨BitVec.ofNat 9 w, .lit s.a, .lit s.b⟩ :: s.pending.tail := rfl
@[simp] theorem loadWord_onFailure (s : State) (w : Nat) :
    (s.loadWord w).onFailure = if s.stoppedAt.isSome then .goOn else s.onFailure := rfl

@[simp] theorem reset_pending : State.reset.pending = [] := rfl
@[simp] theorem reset_responses : State.reset.responses = [] := rfl
@[simp] theorem reset_onFailure : State.reset.onFailure = .stop := rfl

end Sys2Proof.Machine
end

