-- ==== Sys2Proof/Laws/Exec.lean ====
section
/-! SUPPORT. What executing an instruction does, said once: it records one response, a function of the
operand containers alone, and changes nothing else. And what each response is, in values. -/

namespace Sys2Proof.Machine

/-- The response of an instruction to the containers on `a` and `b`. -/
def instrResponse : Instr → Container → Container → Response
  | .add, a, b => respAdd a b
  | .sub, a, b => respSub a b
  | .mul, a, b => respMul a b
  | .div, a, b => respDiv a b
  | .shl n, a, _ => respShl n a
  | .shr n, a, _ => respShr n a
  | .shldiv n, a, b => respShldiv n a b
  | .cmp, a, b => respCmp a b
  | .fromi16, a, _ => respFromi16 a
  | .toi32, a, _ => respToi32 a
  | .fromi32, a, _ => respFromi32 a
  | .toi16, a, _ => respToi16 a
  | .reservedC, _, _ => raise .illegalOp
  | .reservedD, _, _ => raise .illegalOp
  | .reservedE, _, _ => raise .illegalOp
  | .reservedF, _, _ => raise .illegalOp

/-- Every instruction answers a next state, in which only the run record has changed. -/
theorem exec_eq_record (i : Instr) (s : State) :
    exec i s = .next (s.record (instrResponse i s.a s.b)) := by
  cases i <;> rfl

/-- DIV by a zero pattern fails (R84, R137). -/
theorem respDiv_of_zero {a b : Container} (h : low24 b = 0#24) : respDiv a b = .fail .divByZero :=
  if_pos ((int24_eq_zero_iff b).2 h)

/-- DIV by any other pattern gives the clamped quotient (R84). -/
theorem respDiv_of_ne_zero {a b : Container} (h : low24 b ≠ 0#24) :
    respDiv a b = .ok (enc32 (clamp24 (tdiv (int24 a) (int24 b)))) :=
  if_neg fun e => h ((int24_eq_zero_iff b).1 e)

/-- SHL by a legal amount (R101). -/
theorem respShl_of_le {n : Nat} (a : Container) (h : n ≤ 23) :
    respShl n a = .ok (enc32 (clamp24 (int24 a * 2 ^ n))) :=
  if_neg (Nat.not_lt.2 h)

/-- SHL by an amount out of range (R100). -/
theorem respShl_of_gt {n : Nat} (a : Container) (h : 24 ≤ n) : respShl n a = .fail .shiftRange :=
  if_pos h

/-- SHR by a legal amount (R102). -/
theorem respShr_of_le {n : Nat} (a : Container) (h : n ≤ 23) :
    respShr n a = .ok (enc32 ((low24 a).sshiftRight n).toInt) :=
  if_neg (Nat.not_lt.2 h)

/-- SHR by an amount out of range (R100). -/
theorem respShr_of_gt {n : Nat} (a : Container) (h : 24 ≤ n) : respShr n a = .fail .shiftRange :=
  if_pos h

/-- SHLDIV by a zero pattern, for every shift amount (R103, R142). -/
theorem respShldiv_of_zero {n : Nat} {a b : Container} (h : low24 b = 0#24) :
    respShldiv n a b = .fail .divByZero :=
  if_pos ((int24_eq_zero_iff b).2 h)

/-- SHLDIV by another pattern, with an amount out of range (R100, R103). -/
theorem respShldiv_of_gt {n : Nat} {a b : Container} (hb : low24 b ≠ 0#24) (h : 24 ≤ n) :
    respShldiv n a b = .fail .shiftRange :=
  (if_neg fun e => hb ((int24_eq_zero_iff b).1 e)).trans (if_pos h)

/-- SHLDIV by another pattern, with a legal amount (R103). -/
theorem respShldiv_of_le {n : Nat} {a b : Container} (hb : low24 b ≠ 0#24) (h : n ≤ 23) :
    respShldiv n a b = .ok (enc32 (clamp24 (tdiv (int24 a * 2 ^ n) (int24 b)))) :=
  (if_neg fun e => hb ((int24_eq_zero_iff b).1 e)).trans (if_neg (Nat.not_lt.2 h))

/-- The value of an arithmetic right shift is the floor of the quotient (R102). -/
theorem arithShiftRight_toInt (p : Int24) (n : Nat) : (arithShiftRight p n).toInt = Int.fdiv p.toInt (2 ^ n) := by
  rw [arithShiftRight, BitVec.toInt_sshiftRight, Int.shiftRight_eq_div_pow,
    Int.fdiv_eq_ediv_of_nonneg _ (by positivity)]
  norm_cast

/-- A result in the 24-bit range is canonical (R23, R29). -/
theorem success_canonical (r : Int) (lo : Config.MIN ≤ r) (hi : r ≤ Config.MAX) : (success r).Canonical := by
  have he : (enc32 r).toInt = r :=
    enc32_toInt r (Int.le_trans (by decide) lo) (Int.le_trans hi (by decide))
  exact signExtended24_of_range _ (by rw [he]; exact lo) (by rw [he]; exact hi)

theorem success_clamp24_canonical (v : Int) : (success (clamp24 v)).Canonical :=
  success_canonical _ (clamp24_ge_min v) (clamp24_le_max v)

/-- The three values of the ordering bits (R115). -/
theorem orderBits_cases (x y : Int) :
    (x < y ∧ orderBits x y = 1#3) ∨ (x = y ∧ orderBits x y = 2#3) ∨ (x > y ∧ orderBits x y = 4#3) := by
  unfold orderBits
  rcases Int.lt_trichotomy x y with h | h | h
  · refine .inl ⟨h, ?_⟩
    have h1 : ¬ x > y := by omega
    have h2 : ¬ x = y := by omega
    simp only [h, h1, h2, decide_true, decide_false]
    decide
  · refine .inr (.inl ⟨h, ?_⟩)
    subst h
    simp
  · refine .inr (.inr ⟨h, ?_⟩)
    have h1 : ¬ x < y := by omega
    have h2 : ¬ x = y := by omega
    simp only [h, h1, h2, decide_true, decide_false]
    decide

end Sys2Proof.Machine
end

