-- ==== Sys2Proof/Laws/PerInstr.lean ====
section
/-! SUPPORT. What holds of every instruction as syntax, one lemma per constructor: the encoder puts the
operation code of spec/30_encoding.md R59 and R60 into `cw[3:0]`, and the shift amount into `cw[8:4]`. -/

namespace Sys2Proof.Laws.OpField

/-- The encoded word carries the operation code of the instruction. -/
def Statement (i : Instr) : Prop := opField (encode i) = opCode i

/-- True of every instruction, since the encoder is one append. -/
theorem of_any (i : Instr) : Statement i := opField_append _ _

theorem add : Statement .add := of_any _
theorem sub : Statement .sub := of_any _
theorem mul : Statement .mul := of_any _
theorem div : Statement .div := of_any _
theorem shl (n : Nat) : Statement (.shl n) := of_any _
theorem shr (n : Nat) : Statement (.shr n) := of_any _
theorem shldiv (n : Nat) : Statement (.shldiv n) := of_any _
theorem cmp : Statement .cmp := of_any _
theorem fromi16 : Statement .fromi16 := of_any _
theorem toi32 : Statement .toi32 := of_any _
theorem fromi32 : Statement .fromi32 := of_any _
theorem toi16 : Statement .toi16 := of_any _
theorem reservedC : Statement .reservedC := of_any _
theorem reservedD : Statement .reservedD := of_any _
theorem reservedE : Statement .reservedE := of_any _
theorem reservedF : Statement .reservedF := of_any _

end Sys2Proof.Laws.OpField

namespace Sys2Proof.Laws.ShiftCode

/-- The encoded word of a well-formed instruction carries its shift amount, or 0 where none is read. -/
def Statement (i : Instr) : Prop := wellFormed i = true → shiftAmount (encode i) = shiftOperand i

theorem add : Statement .add := fun _ => shiftAmount_append 0 _ (by decide)
theorem sub : Statement .sub := fun _ => shiftAmount_append 0 _ (by decide)
theorem mul : Statement .mul := fun _ => shiftAmount_append 0 _ (by decide)
theorem div : Statement .div := fun _ => shiftAmount_append 0 _ (by decide)
theorem shl (n : Nat) : Statement (.shl n) := fun h => shiftAmount_append n _ h
theorem shr (n : Nat) : Statement (.shr n) := fun h => shiftAmount_append n _ h
theorem shldiv (n : Nat) : Statement (.shldiv n) := fun h => shiftAmount_append n _ h
theorem cmp : Statement .cmp := fun _ => shiftAmount_append 0 _ (by decide)
theorem fromi16 : Statement .fromi16 := fun _ => shiftAmount_append 0 _ (by decide)
theorem toi32 : Statement .toi32 := fun _ => shiftAmount_append 0 _ (by decide)
theorem fromi32 : Statement .fromi32 := fun _ => shiftAmount_append 0 _ (by decide)
theorem toi16 : Statement .toi16 := fun _ => shiftAmount_append 0 _ (by decide)
theorem reservedC : Statement .reservedC := fun _ => shiftAmount_append 0 _ (by decide)
theorem reservedD : Statement .reservedD := fun _ => shiftAmount_append 0 _ (by decide)
theorem reservedE : Statement .reservedE := fun _ => shiftAmount_append 0 _ (by decide)
theorem reservedF : Statement .reservedF := fun _ => shiftAmount_append 0 _ (by decide)

end Sys2Proof.Laws.ShiftCode
end

