-- ==== Sys2Proof/Laws/Program.lean ====
section
/-! SUPPORT. The host level: when the host stops, what the host variables hold, and what presenting a line and
taking a step can do. -/

namespace Sys2Proof.Machine

/-- No failure is found exactly in a record of successes. -/
theorem firstFailureFrom_eq_none (k : Nat) (rs : List Response) :
    firstFailureFrom k rs = none ↔ ∀ r ∈ rs, ∃ y, r = .ok y := by
  induction rs generalizing k with
  | nil => simp [firstFailureFrom]
  | cons r rs ih =>
    cases r with
    | ok y => simp [firstFailureFrom, ih]
    | fail c => simp [firstFailureFrom]

/-- The first failure after a run of successes. -/
theorem firstFailureFrom_append (k : Nat) (pre post : List Response) (c : FailCode)
    (h : ∀ r ∈ pre, ∃ y, r = .ok y) :
    firstFailureFrom k (pre ++ .fail c :: post) = some (k + pre.length, c) := by
  induction pre generalizing k with
  | nil => simp [firstFailureFrom]
  | cons r pre ih =>
    obtain ⟨y, rfl⟩ := h r (by simp)
    simp only [List.cons_append, firstFailureFrom, List.length_cons]
    rw [ih (k + 1) (fun r hr => h r (by simp [hr]))]
    congr 2
    omega

/-- The host has not stopped: it goes on after failures, or there was none (R170, R171). -/
theorem stoppedAt_eq_none (s : State) : s.stoppedAt = none ↔ s.onFailure = .goOn ∨ s.NoFailure := by
  unfold State.stoppedAt State.NoFailure
  cases h : s.onFailure with
  | stop => simp [firstFailureFrom_eq_none]
  | goOn => simp

@[simp] theorem operand_lit (s : State) (v : Container) : s.operand (.lit v) = some v := rfl
@[simp] theorem operand_ref (s : State) (k : Nat) : s.operand (.ref k) = s.hostVar k := rfl

/-- What presenting a line can do, if it presents one. -/
theorem present_cases {s t : State} (h : present s = .next t) :
    s.stoppedAt = none ∧ ∃ l rest a b, s.pending = l :: rest ∧ s.operand l.a = some a ∧
      s.operand l.b = some b ∧ t = s.drive l.cw a b rest := by
  unfold present at h
  split at h
  · cases h
  · cases h
  · rename_i l rest hs hp
    split at h
    · rename_i a b ha hb
      cases h
      exact ⟨hs, l, rest, a, b, hp, ha, hb, rfl⟩
    · cases h

/-- Presenting a line whose operands have values. -/
theorem present_line {s : State} {l : Line} {rest : List Line} {a b : Container}
    (hs : s.stoppedAt = none) (hp : s.pending = l :: rest) (ha : s.operand l.a = some a)
    (hb : s.operand l.b = some b) : present s = .next (s.drive l.cw a b rest) := by
  unfold present
  simp only [hs, hp, ha, hb]

/-- Everything a step can do, if it answers a next state: it takes one line off the program, puts its
request on the ports and records one response. -/
theorem step_cases {s t : State} (h : step s = .next t) :
    s.stoppedAt = none ∧ ∃ l rest a b, s.pending = l :: rest ∧ s.operand l.a = some a ∧
      s.operand l.b = some b ∧
      t = (s.drive l.cw a b rest).record (instrResponse (decode l.cw) a b) := by
  unfold step at h
  split at h
  · rename_i u hu
    obtain ⟨hs, l, rest, a, b, hp, ha, hb, rfl⟩ := present_cases hu
    rw [exec_eq_record] at h
    cases h
    exact ⟨hs, l, rest, a, b, hp, ha, hb, rfl⟩
  · cases h
  · cases h

/-- A host variable that holds a value keeps it when a response is added. -/
theorem hostVar_of_prefix {s t : State} {r : Response} (h : t.responses = s.responses ++ [r]) {k : Nat}
    (hk : k ≤ s.responses.length) : t.hostVar k = s.hostVar k := by
  cases k with
  | zero => rfl
  | succ k => simp only [State.hostVar, h, List.getElem?_append_left (show k < s.responses.length by omega)]

end Sys2Proof.Machine
end

