-- ==== Sys2Proof/Tests/Slice0.lean ====
section
/-! SUPPORT. Tests of one step or one function each. Expected results are those of spec/95_test_vectors.md (the
vector is named beside a test) or of the rule named there, never the model's own output. After them, a witness for
every statement that has hypotheses. -/

namespace Sys2Proof.Tests

open Sys2Proof.Machine

/-- The reset state with containers on the ports `a` and `b`. -/
def onPorts (a b : Container) : State := { State.reset with a := a, b := b }

/-- The last recorded response of a next state. -/
def answer (o : Outcome) : Option Response :=
  match o with
  | .next t => t.responses.getLast?
  | .fault _ => none
  | .refused _ => none

/-- The fault of a step that faults. -/
def faultOf (o : Outcome) : Option Fault :=
  match o with
  | .next _ => none
  | .fault f => some f
  | .refused _ => none

/-- The refusal of a step that refuses. -/
def refusalOf (o : Outcome) : Option Refusal :=
  match o with
  | .next _ => none
  | .fault _ => none
  | .refused r => some r

/-! ### Parameters (R5 to R8) -/

theorem test_parameters : Config.MIN = -2 ^ 23 ∧ Config.MAX = 2 ^ 23 - 1 ∧ Config.I16_MIN = -2 ^ 15 ∧
    Config.I16_MAX = 2 ^ 15 - 1 ∧ Config.I32_MIN = -2 ^ 31 ∧ Config.I32_MAX = 2 ^ 31 - 1 ∧
    Config.CW_W = Config.N_W + Config.OP_W := by decide

/-! ### Well-formedness (R55, R58): one ill-formed term for each check -/

theorem test_shl_32_ill_formed : wellFormed (.shl 32) = false := by decide
theorem test_shr_32_ill_formed : wellFormed (.shr 32) = false := by decide
theorem test_shldiv_32_ill_formed : wellFormed (.shldiv 32) = false := by decide
theorem test_shl_31_well_formed : wellFormed (.shl 31) = true := by decide

/-- R169: a reference to the line itself, and to no line. -/
theorem test_program_reference_ill_formed :
    programWellFormed 1 [⟨0#9, .ref 1, .lit 0#32⟩] = false ∧
    programWellFormed 2 [⟨0#9, .lit 0#32, .ref 0⟩] = false ∧
    programWellFormed 2 [⟨0#9, .ref 1, .lit 0#32⟩] = true := by decide

/-! ### Decoding: words written out from the patterns of R59 and R60, `n` in bits 8 to 4 -/

theorem test_decode_add : decode 0b111110000#9 = .add := by decide
theorem test_decode_sub : decode 0b000000001#9 = .sub := by decide
theorem test_decode_mul : decode 0b000000010#9 = .mul := by decide
theorem test_decode_div : decode 0b110000011#9 = .div := by decide
theorem test_decode_shl : decode 0b100110100#9 = .shl 19 := by decide
theorem test_decode_shr : decode 0b000010101#9 = .shr 1 := by decide
theorem test_decode_shldiv : decode 0b111110110#9 = .shldiv 31 := by decide
theorem test_decode_cmp : decode 0b000000111#9 = .cmp := by decide
theorem test_decode_fromi16 : decode 0b000001000#9 = .fromi16 := by decide
theorem test_decode_toi32 : decode 0b000001001#9 = .toi32 := by decide
theorem test_decode_fromi32 : decode 0b000001010#9 = .fromi32 := by decide
theorem test_decode_toi16 : decode 0b000001011#9 = .toi16 := by decide
theorem test_decode_reservedC : decode 0b111111100#9 = .reservedC := by decide
theorem test_decode_reservedD : decode 0b000001101#9 = .reservedD := by decide
theorem test_decode_reservedE : decode 0b000001110#9 = .reservedE := by decide
theorem test_decode_reservedF : decode 0b111111111#9 = .reservedF := by decide

/-- P3 and P8 of spec/95_test_vectors.md: the encoded words of SHLDIV by 3 and SHL by 23. -/
theorem test_encode : encode (.shldiv 3) = 0x036#9 ∧ encode (.shl 23) = 0x174#9 ∧ encode .toi16 = 0x00B#9 := by
  decide

/-- R62: a number of ten bits is no command word. -/
theorem test_table_word : decodeTableWord 16 0x006 = some (.shldiv 0) ∧ decodeTableWord 16 0x200 = none := by
  decide

/-! ### One transaction per test, from the vectors -/

/-- V-ADD-13. -/
theorem test_add_first_sum_above_max : answer (exec .add (onPorts 0x00400000#32 0x00400000#32)) =
    some (.ok 0x007FFFFF#32) := by decide
/-- V-ADD-16: the upper bytes are ignored. -/
theorem test_add_upper_bytes : answer (exec .add (onPorts 0xAB000001#32 0xCD000002#32)) =
    some (.ok 0x00000003#32) := by decide
/-- V-SUB-2: exactly MAX, no clamp. -/
theorem test_sub_negated_min : answer (exec .sub (onPorts 0xFFFFFFFF#32 0xFF800000#32)) =
    some (.ok 0x007FFFFF#32) := by decide
/-- V-SUB-11. -/
theorem test_sub_order : answer (exec .sub (onPorts 0x00000000#32 0x007FFFFF#32)) =
    some (.ok 0xFF800001#32) := by decide
/-- V-MUL-1. -/
theorem test_mul_largest : answer (exec .mul (onPorts 0xFF800000#32 0xFF800000#32)) =
    some (.ok 0x007FFFFF#32) := by decide
/-- V-MUL-10. -/
theorem test_mul_exactly_min : answer (exec .mul (onPorts 0x00001000#32 0xFFFFF800#32)) =
    some (.ok 0xFF800000#32) := by decide
/-- V-DIV-2: toward zero. -/
theorem test_div_truncates : answer (exec .div (onPorts 0xFFFFFFF9#32 0x00000002#32)) =
    some (.ok 0xFFFFFFFD#32) := by decide
/-- V-DIV-23: only `b[23:0]` is tested. -/
theorem test_div_by_zero : answer (exec .div (onPorts 0x00000005#32 0xFF000000#32)) =
    some (.fail .divByZero) := by decide
/-- V-SHL-15: the pattern 0x400000 does not become MIN. -/
theorem test_shl_saturates : answer (exec (.shl 1) (onPorts 0x00400000#32 0#32)) =
    some (.ok 0x007FFFFF#32) := by decide
/-- V-SHL-8. -/
theorem test_shl_24_fails : answer (exec (.shl 24) (onPorts 0#32 0#32)) = some (.fail .shiftRange) := by decide
/-- V-SHR-6: the floor. -/
theorem test_shr_floor : answer (exec (.shr 1) (onPorts 0xFFFFFFF9#32 0#32)) =
    some (.ok 0xFFFFFFFC#32) := by decide
/-- V-SHR-14. -/
theorem test_shr_31_fails : answer (exec (.shr 31) (onPorts 0xFFFFFFFF#32 0#32)) =
    some (.fail .shiftRange) := by decide
/-- V-SHLDIV-21: exact although the shift alone saturates. -/
theorem test_shldiv_fused : answer (exec (.shldiv 23) (onPorts 0x00000001#32 0x00000002#32)) =
    some (.ok 0x00400000#32) := by decide
/-- V-SHLDIV-12: the zero divisor goes first. -/
theorem test_shldiv_priority : answer (exec (.shldiv 24) (onPorts 0x00000005#32 0#32)) =
    some (.fail .divByZero) := by decide
/-- V-CMP-1. -/
theorem test_cmp_signed : answer (exec .cmp (onPorts 0xFF800000#32 0x007FFFFF#32)) =
    some (.ok 0x00000001#32) := by decide
/-- V-CMP-11. -/
theorem test_cmp_upper_bytes : answer (exec .cmp (onPorts 0xFF000005#32 0x00000005#32)) =
    some (.ok 0x00000002#32) := by decide
/-- V-FROMI16-8. -/
theorem test_fromi16 : answer (exec .fromi16 (onPorts 0x12348000#32 0#32)) = some (.ok 0xFFFF8000#32) := by decide
/-- V-TOI32-6. -/
theorem test_toi32 : answer (exec .toi32 (onPorts 0xAB800000#32 0#32)) = some (.ok 0xFF800000#32) := by decide
/-- V-FROMI32-11. -/
theorem test_fromi32 : answer (exec .fromi32 (onPorts 0x00FFFFFF#32 0#32)) = some (.ok 0x007FFFFF#32) := by decide
/-- V-TOI16-11. -/
theorem test_toi16 : answer (exec .toi16 (onPorts 0xABFF7FFF#32 0#32)) = some (.ok 0xFFFF8000#32) := by decide
/-- V-ILL-1. -/
theorem test_reservedC : answer (exec .reservedC (onPorts 0#32 0#32)) = some (.fail .illegalOp) := by decide
/-- V-ILL-4. -/
theorem test_reservedD : answer (exec .reservedD (onPorts 0xFFFFFFFF#32 0xFFFFFFFF#32)) =
    some (.fail .illegalOp) := by decide
/-- V-ILL-5. -/
theorem test_reservedE : answer (exec .reservedE (onPorts 0#32 0#32)) = some (.fail .illegalOp) := by decide
/-- V-ILL-8. -/
theorem test_reservedF : answer (exec .reservedF (onPorts 0xFFFFFFFF#32 0xFFFFFFFF#32)) =
    some (.fail .illegalOp) := by decide

/-- The failure function of R152 on V-SHLDIV-12, V-SHLDIV-13, V-IGN-2 and V-ILL-2. -/
theorem test_failure_function :
    failureOf 0x186#9 0#32 = some .divByZero ∧ failureOf 0x186#9 1#32 = some .shiftRange ∧
    failureOf 0x183#9 2#32 = none ∧ failureOf 0x1FC#9 0xFFFFFFFF#32 = some .illegalOp := by decide

/-- The table of R56: which bits of each port are read. -/
theorem test_formats : format .div = .AB ∧ format (.shr 0) = .AN ∧ format (.shldiv 0) = .ANB ∧
    format .fromi32 = .A ∧ format .reservedE = .RSV ∧ readWidthA .fromi16 = 16 ∧ readWidthA .fromi32 = 32 ∧
    readWidthB (.shl 0) = 0 ∧ readMaskCw .cmp = 0x00F#9 ∧ readMaskCw (.shl 0) = 0x1FF#9 := by decide

/-! ### The host level -/

/-- A state in which `r1` is 100 and the line `SHLDIV r1, 3, 4` comes next (P3). -/
def atShldivLine : State :=
  { State.reset with pending := [⟨0x036#9, .ref 1, .lit 4#32⟩], responses := [.ok 0x00000064#32] }

/-- A state after `t1` failed, with a line left (the end of P7). -/
def afterFailure (policy : FailurePolicy) : State :=
  { State.reset with
    pending := [⟨0x000#9, .lit 1000#32, .lit 1000#32⟩], responses := [.fail .divByZero], onFailure := policy }

/-- P3: the step runs the line on the host variable. -/
theorem test_step_uses_host_variable : answer (step atShldivLine) = some (.ok 0x000000C8#32) := by decide

/-- P7: the run ends at the failure; a host that goes on is answered `Ok(0x000007D0)`. -/
theorem test_step_after_failure : faultOf (step (afterFailure .stop)) = some (.failedAt 1 .divByZero) ∧
    answer (step (afterFailure .goOn)) = some (.ok 0x000007D0#32) := by decide

/-- R169: a reference to a failed line leaves no request to present. -/
theorem test_step_ill_formed_line :
    refusalOf (step { afterFailure .goOn with pending := [⟨0x000#9, .ref 1, .lit 0#32⟩] }) =
      some (.illFormedLine 2) := by decide

/-- A word of the opcode table runs as the first step after reset (V-FROMI16-1, V-ILL-1). -/
theorem test_fetch_word : answer (step (State.reset.withFetchWord 9 0x008)) = some (.ok 0#32) ∧
    answer (step (State.reset.withFetchWord 9 0x00C)) = some (.fail .illegalOp) := by decide

/-- The lines of P8 and P3 in the syntax of R63, with R64's second spelling and the raw form. -/
theorem test_assemble_line :
    assembleLine 2 "t2: SHL r1, 23" = some ⟨0x174#9, .ref 1, .lit 0#32⟩ ∧
    assembleLine 3 "shift_left_then_div r1, 3, r2" = some ⟨0x036#9, .ref 1, .ref 2⟩ ∧
    assembleLine 1 "FROMI16 -40" = some ⟨0x008#9, .lit 0xFFFFFFD8#32, .lit 0#32⟩ ∧
    assembleLine 1 ".cw 0x1FC, 0xFFFFFFFF, 0" = some ⟨0x1FC#9, .lit 0xFFFFFFFF#32, .lit 0#32⟩ := by decide

/-- R63, R65: a shift amount above 31, a literal above the 32-bit range, a name outside the table. -/
theorem test_assemble_refuses : assembleLine 1 "SHL 1, 32" = none ∧
    assembleLine 1 "TOI32 2147483648" = none ∧ assembleLine 1 "NEG 1" = none := by decide

/-- The pins on V-DIV-1: `err` is OK and `y` the quotient. -/
theorem test_pins : ({ onPorts 7#32 2#32 with cw := 0x003#9 } : State).portErr = 0b00#2 ∧
    ({ onPorts 7#32 2#32 with cw := 0x003#9 } : State).portY = 3#32 := by decide

/-! ### Witnesses: states and operands that meet the hypotheses of each statement -/

theorem witness_DecodeOfEncodeIsTheInstruction : wellFormed (.shldiv 31) = true := by decide

theorem witness_AddIsTheClampedSum : (0x1F0#9 : CommandWord).extractLsb' 0 4 = 0x0#4 := by decide
theorem witness_SubIsTheClampedDifference : (0x1F1#9 : CommandWord).extractLsb' 0 4 = 0x1#4 := by decide
theorem witness_MulIsTheClampedProduct : (0x1F2#9 : CommandWord).extractLsb' 0 4 = 0x2#4 := by decide

theorem witness_DivIsTheClampedTruncatedQuotient : (0x1F3#9 : CommandWord).extractLsb' 0 4 = 0x3#4 ∧
    (onPorts 0#32 0xFF000000#32).b.extractLsb' 0 24 = 0#24 ∧
    (onPorts 0#32 0xFF000001#32).b.extractLsb' 0 24 ≠ 0#24 := by decide

theorem witness_DivQuotientIsCharacterisedByItsRemainder :
    ((onPorts 0xFFFFFFF9#32 2#32).b.extractLsb' 0 24 ≠ 0#24 ∧
      ((onPorts 0xFFFFFFF9#32 2#32).a.extractLsb' 0 24).toInt =
        -3 * ((onPorts 0xFFFFFFF9#32 2#32).b.extractLsb' 0 24).toInt + -1 ∧
      (-1 : Int).natAbs < ((onPorts 0xFFFFFFF9#32 2#32).b.extractLsb' 0 24).toInt.natAbs ∧
      (-1 : Int).sign = ((onPorts 0xFFFFFFF9#32 2#32).a.extractLsb' 0 24).toInt.sign) ∧
    (onPorts 0#32 0xFF000000#32).b.extractLsb' 0 24 = 0#24 := by decide

theorem witness_SaturationHappensExactlyOutsideTheRange :
    (-8388608 : Int) = ((onPorts 0x00800000#32 0xFFFFFFFF#32).a.extractLsb' 0 24).toInt ∧
    (-1 : Int) = ((onPorts 0x00800000#32 0xFFFFFFFF#32).b.extractLsb' 0 24).toInt ∧ (-1 : Int) ≠ 0 := by decide

/-- Operands that meet each bound of `SaturationHappensExactlyOutsideTheRange` at its edge: the sum one above and
one below the range, the difference likewise, the product the nearest multiples of 2 outside it. -/
theorem witness_SaturationHappensExactlyOutsideTheRange_bounds :
    (8388607 = (0x7FFFFF#24).toInt ∧ 1 = (0x000001#24).toInt ∧ 2 = (0x000002#24).toInt ∧
      -1 = (0xFFFFFF#24).toInt ∧ -8388608 = (0x800000#24).toInt ∧ 4194304 = (0x400000#24).toInt ∧
      -4194305 = (0xBFFFFF#24).toInt) ∧
    ((8388607 + 1 : Int) > 8388607 ∧ (-8388608 + -1 : Int) < -8388608) ∧
    ((8388607 - -1 : Int) > 8388607 ∧ (-8388608 - 1 : Int) < -8388608) ∧
    ((4194304 * 2 : Int) > 8388607 ∧ (-4194305 * 2 : Int) < -8388608) := by decide

theorem witness_SubIsAddOfTheNegationButForMin :
    (onPorts 0#32 0x00800001#32).b.extractLsb' 0 24 ≠ 0x800000#24 ∧
    (onPorts 0#32 0xAB800000#32).b.extractLsb' 0 24 = 0x800000#24 := by decide

theorem witness_AddSubAgreeWithTheBitLevelOverflowTest :
    0x400000#24 = (onPorts 0x00400000#32 0x00C00000#32).a.extractLsb' 0 24 ∧
    0xC00000#24 = (onPorts 0x00400000#32 0x00C00000#32).b.extractLsb' 0 24 := by decide

theorem witness_MulAgreesWithTheBitLevelOverflowTest :
    0x400000000000#48 = ((onPorts 0x00800000#32 0x00800000#32).a.extractLsb' 0 24).signExtend 48 *
      ((onPorts 0x00800000#32 0x00800000#32).b.extractLsb' 0 24).signExtend 48 := by decide

theorem witness_ShlIsTheClampedShiftedValue :
    (0x174#9 : CommandWord).extractLsb' 0 4 = 0x4#4 ∧ 23 ≤ 23 ∧ 24 ≤ 24 := by decide

/-- V-SHL-4 (exact), V-SHL-3 and V-SHL-20 (clamped high and low) meet the three clauses on the result. -/
theorem witness_ShlIsExactOnItsStatedRange :
    (23 ≤ 23 ∧ (-1 : Int) = ((onPorts 0xFFFFFFFF#32 0#32).a.extractLsb' 0 24).toInt ∧
      (0xFF800000#32).toInt = -1 * 2 ^ 23) ∧
    ((1 : Int) = ((onPorts 1#32 0#32).a.extractLsb' 0 24).toInt ∧ (0x007FFFFF#32).toInt ≠ 1 * 2 ^ 23 ∧
      (1 : Int) > 0) ∧
    ((-3 : Int) = ((onPorts 0xFFFFFFFD#32 0#32).a.extractLsb' 0 24).toInt ∧
      (0xFF800000#32).toInt ≠ -3 * 2 ^ 22 ∧ (-3 : Int) < 0) := by decide

theorem witness_ShrIsTheFloorAndCopiesTheSignBit :
    (0x175#9 : CommandWord).extractLsb' 0 4 = 0x5#4 ∧ 23 ≤ 23 ∧ 24 ≤ 24 ∧ 23 < 24 := by decide

theorem witness_ShldivDividesTheUnclampedShiftedValue : (0x176#9 : CommandWord).extractLsb' 0 4 = 0x6#4 ∧
    (onPorts 5#32 0xFF000000#32).b.extractLsb' 0 24 = 0#24 ∧
    ((onPorts 5#32 1#32).b.extractLsb' 0 24 ≠ 0#24 ∧ 24 ≤ 24 ∧ 23 ≤ 23) := by decide

/-- V-SHL-22: `-2 * 2^22` is exactly MIN; the dividends of V-SHLDIV-36 and V-SHLDIV-4 with a divisor of 2 and -2,
out of range high and low, and `4194305 * 2`, outside by exactly `|B|` with `B = 3`; and V-SHLDIV-2. -/
theorem witness_FusedShiftDivideIsNotTheTwoSteps :
    (22 ≤ 23 ∧ -8388608 ≤ ((onPorts 0xFFFFFFFE#32 0#32).a.extractLsb' 0 24).toInt * 2 ^ 22 ∧
      ((onPorts 0xFFFFFFFE#32 0#32).a.extractLsb' 0 24).toInt * 2 ^ 22 ≤ 8388607) ∧
    (((onPorts 0x007FFFFF#32 2#32).b.extractLsb' 0 24).toInt.natAbs = 2 ∧
      8388607 + 2 ≤ ((onPorts 0x007FFFFF#32 2#32).a.extractLsb' 0 24).toInt * 2 ^ 23) ∧
    (((onPorts 0xFF800000#32 0xFFFFFFFE#32).b.extractLsb' 0 24).toInt.natAbs = 2 ∧
      ((onPorts 0xFF800000#32 0xFFFFFFFE#32).a.extractLsb' 0 24).toInt * 2 ^ 23 ≤ -8388608 - 2) ∧
    (((onPorts 0x00400001#32 3#32).b.extractLsb' 0 24).toInt.natAbs = 3 ∧
      8388607 + 3 ≤ ((onPorts 0x00400001#32 3#32).a.extractLsb' 0 24).toInt * 2 ^ 1) ∧
    (onPorts 0x007FFFFF#32 2#32).a.extractLsb' 0 24 = 0x7FFFFF#24 ∧
    (onPorts 0x007FFFFF#32 2#32).b.extractLsb' 0 24 = 2#24 := by decide

theorem witness_ShldivByZeroShiftIsDivAndByOneIsShl :
    (onPorts 0#32 0xFF000001#32).b.extractLsb' 0 24 = 1#24 := by decide

theorem witness_CmpIsTheSignedOrder : (0x1F7#9 : CommandWord).extractLsb' 0 4 = 0x7#4 := by decide

/-- V-SUB-13 and V-TOI16-2 give the two results. -/
theorem witness_CmpOrdersResultsByTheirValue :
    exec .sub (onPorts 0xFF800000#32 0#32) =
      .next { onPorts 0xFF800000#32 0#32 with responses := [.ok (onPorts 0xFF800000#32 0x00007FFF#32).a] } ∧
    exec .toi16 (onPorts 0x00007FFF#32 0#32) =
      .next { onPorts 0x00007FFF#32 0#32 with responses := [.ok (onPorts 0xFF800000#32 0x00007FFF#32).b] } :=
  ⟨rfl, rfl⟩

theorem witness_Fromi16IsExact : (0x1F8#9 : CommandWord).extractLsb' 0 4 = 0x8#4 ∧ 24 ≤ 24 ∧ 24 < 32 := by decide
theorem witness_Toi32ReplicatesBit23 : (0x1F9#9 : CommandWord).extractLsb' 0 4 = 0x9#4 ∧ 31 < 32 ∧
    SignExtended24 (onPorts 0xFF800000#32 0#32).a := by decide
theorem witness_Fromi32IsTheClampedValue : (0x1FA#9 : CommandWord).extractLsb' 0 4 = 0xA#4 := by decide
theorem witness_Toi16IsTheClampedValue : (0x1FB#9 : CommandWord).extractLsb' 0 4 = 0xB#4 := by decide

theorem witness_ConversionResultsHaveEqualTopBits :
    (Instr.toi16 = .fromi16 ∨ Instr.toi16 = .toi16 ∨ Instr.toi16 = .toi32 ∨ Instr.toi16 = .fromi32) ∧
    (23 ≤ 23 ∧ 23 < 32) ∧ 15 ≤ 15 ∧ 15 < 32 := by decide

theorem witness_ReservedCodesFailAlways : (0x1FC#9 : CommandWord).extractLsb' 0 4 = 0xC#4 ∧
    (0x00D#9 : CommandWord).extractLsb' 0 4 = 0xD#4 ∧ (0x00E#9 : CommandWord).extractLsb' 0 4 = 0xE#4 ∧
    (0x1FF#9 : CommandWord).extractLsb' 0 4 = 0xF#4 := by decide

/-- V-DIV-13, V-SHL-8, V-SHR-13 and V-SHLDIV-13 fail. -/
theorem witness_OnlyTheStatedOperationsFail :
    (exec .div (onPorts 0#32 0#32) = .next { onPorts 0#32 0#32 with responses := [.fail .divByZero] }) ∧
    (exec (.shl 24) (onPorts 0#32 0#32) = .next { onPorts 0#32 0#32 with responses := [.fail .shiftRange] }) ∧
    (exec (.shr 24) (onPorts 1#32 0#32) = .next { onPorts 1#32 0#32 with responses := [.fail .shiftRange] }) ∧
    exec (.shldiv 24) (onPorts 5#32 1#32) =
      .next { onPorts 5#32 1#32 with responses := [.fail .shiftRange] } := ⟨rfl, rfl, rfl, rfl⟩

theorem witness_ZeroDivisorGoesBeforeShiftRange :
    (onPorts 5#32 0#32).b.extractLsb' 0 24 = 0#24 ∧ 24 ≤ 24 := by decide

/-- V-FROMI16-8 and a container with another upper half; V-IGN-1 and V-ADD-17's command words. -/
theorem witness_ResponsesDependOnlyOnTheBitsRead :
    (∀ k : Nat, k < readWidthA .fromi16 →
      (onPorts 0x12348000#32 0#32).a.getLsbD k = (onPorts 0xFFFF8000#32 7#32).a.getLsbD k) ∧
    (∀ k : Nat, k < readWidthB .fromi16 →
      (onPorts 0x12348000#32 0#32).b.getLsbD k = (onPorts 0xFFFF8000#32 7#32).b.getLsbD k) ∧
    (0x1F0#9 : CommandWord) &&& readMaskCw (decode 0x1F0#9) = 0x000#9 &&& readMaskCw (decode 0x1F0#9) := by
  decide

/-- Both sides of each equivalence can hold: V-SHLDIV-11, V-SHLDIV-13 and V-ILL-1. -/
theorem witness_EachFailureHasExactlyItsCauses :
    exec (.shldiv 3) (onPorts 5#32 0#32) =
      .next { onPorts 5#32 0#32 with responses := [.fail .divByZero] } ∧
    exec (.shldiv 24) (onPorts 5#32 1#32) =
      .next { onPorts 5#32 1#32 with responses := [.fail .shiftRange] } ∧
    exec .reservedC (onPorts 0#32 0#32) = .next { onPorts 0#32 0#32 with responses := [.fail .illegalOp] } :=
  ⟨rfl, rfl, rfl⟩

/-- V-ADD-5, at the lower end of the range. -/
theorem witness_EveryResultLiesInTheRange :
    exec .add (onPorts 0xFF800000#32 0xFF800000#32) =
      .next { onPorts 0xFF800000#32 0xFF800000#32 with responses := [.ok 0xFF800000#32] } ∧
    23 ≤ 23 ∧ 23 < 32 := ⟨rfl, by decide, by decide⟩

theorem witness_UnitsAreTheArmsWithoutContainers :
    0x400000#24 = (onPorts 0x00400000#32 0x00C00000#32).a.extractLsb' 0 24 ∧
    0xC00000#24 = (onPorts 0x00400000#32 0x00C00000#32).b.extractLsb' 0 24 := by decide

/-- Under both alternatives of the first hypothesis: no failure recorded, and a failure with a host that goes on. -/
theorem witness_StepRunsTheDecodedInstruction :
    ((∀ r ∈ atShldivLine.responses, ∃ y, r = .ok y) ∧
      atShldivLine.pending = [⟨0x036#9, .ref 1, .lit 4#32⟩] ∧
      atShldivLine.operand (.ref 1) = some 100#32 ∧ atShldivLine.operand (.lit 4#32) = some 4#32) ∧
    (afterFailure .goOn).onFailure = .goOn ∧
      (afterFailure .goOn).pending = [⟨0x000#9, .lit 1000#32, .lit 1000#32⟩] ∧
      (afterFailure .goOn).operand (.lit 1000#32) = some 1000#32 := by
  refine ⟨⟨fun r hr => ⟨100#32, ?_⟩, rfl, rfl, rfl⟩, rfl, rfl, rfl⟩
  simpa [atShldivLine] using hr

theorem witness_NextStepIsOneTransaction : ∃ t, step atShldivLine = .next t := ⟨_, rfl⟩

theorem witness_EveryLiteralRequestIsAnswered : (afterFailure .goOn).onFailure = .goOn ∧
    (afterFailure .goOn).pending = ⟨0x000#9, .lit 1000#32, .lit 1000#32⟩ :: [] := by decide

theorem witness_HostStopsAtTheFirstFailure : (afterFailure .stop).onFailure = .stop ∧
    (afterFailure .stop).responses = [] ++ .fail .divByZero :: [] ∧
    ∀ r ∈ ([] : List Response), ∃ y, r = .ok y := ⟨rfl, rfl, fun _ h => nomatch h⟩

/-- Each of the three reasons: `r0` on `a`, `r1` on `b` before `t1`, and `r1` after a failed `t1`. -/
theorem witness_LineWithoutItsOperandIsNotPresented :
    (({ State.reset with onFailure := .goOn, pending := [⟨0x000#9, .ref 0, .lit 0#32⟩] } : State).onFailure =
        .goOn ∧ (⟨0x000#9, .ref 0, .lit 0#32⟩ : Line).a = .ref 0) ∧
    (({ State.reset with onFailure := .goOn, pending := [⟨0x000#9, .lit 0#32, .ref 1⟩] } : State).responses.length
        < 1 ∧ (⟨0x000#9, .lit 0#32, .ref 1⟩ : Line).b = .ref 1) ∧
    ((afterFailure .goOn).onFailure = .goOn ∧
      ({ afterFailure .goOn with pending := [⟨0x000#9, .ref 1, .lit 0#32⟩] } : State).responses[1 - 1]? =
        some (.fail .divByZero)) := by
  decide

theorem witness_HostVariablesAreWrittenOnce : ∃ t, step atShldivLine = .next t ∧
    atShldivLine.hostVar 1 = some 100#32 := ⟨_, rfl, rfl⟩

/-- A recorded result, and each failure code, after one step. -/
theorem witness_PinsShowTheRecordedResponse :
    (∃ t, step atShldivLine = .next t ∧ t.responses = atShldivLine.responses ++ [.ok 200#32]) ∧
    (∃ t, step (State.reset.withFetchWord 9 0x003) = .next t ∧ t.responses = [] ++ [.fail .divByZero]) ∧
    (∃ t, step (State.reset.withFetchWord 9 0x184) = .next t ∧ t.responses = [] ++ [.fail .shiftRange]) ∧
    ∃ t, step (State.reset.withFetchWord 9 0x00C) = .next t ∧ t.responses = [] ++ [.fail .illegalOp] :=
  ⟨⟨_, rfl, rfl⟩, ⟨_, rfl, rfl⟩, ⟨_, rfl, rfl⟩, ⟨_, rfl, rfl⟩⟩

theorem witness_StepKeepsTheRecordCanonical : atShldivLine.RecordCanonical ∧ ∃ t, step atShldivLine = .next t := by
  refine ⟨fun r hr => ?_, _, rfl⟩
  have h : r = .ok 100#32 := by simpa [atShldivLine] using hr
  subst h
  decide

theorem witness_StepKeepsTheProgramWellFormed :
    programWellFormed (atShldivLine.responses.length + 1) atShldivLine.pending = true ∧
    ∃ t, step atShldivLine = .next t := ⟨by decide, _, rfl⟩

theorem witness_RunOfAWellFormedProgramEnds : State.reset.onFailure = .stop ∧
    programWellFormed 1 [⟨0x008#9, .lit 100#32, .lit 0#32⟩, ⟨0x034#9, .ref 1, .lit 0#32⟩] = true := by decide

theorem witness_FetchWordRunsNext : 0x1FF < 512 := by decide

end Sys2Proof.Tests
end

/-! SUPPORT. The range invariant (spec/10_state.md R23, R29; spec/40_arithmetic.md R88): every response is
canonical, so every step keeps a canonical record canonical. -/

namespace Sys2Proof.Machine

/-- An instruction answers with the response `r` exactly if `r` is its response to the operand containers. -/
theorem exec_eq_next_iff (i : Instr) (s : State) (r : Response) :
    exec i s = .next { s with responses := s.responses ++ [r] } ↔ instrResponse i s.a s.b = r := by
  rw [exec_eq_record]
  constructor
  · intro h
    simpa [State.record] using h
  · rintro rfl
    rfl

/-! ### A container that is sign-extended from 24 bits -/

theorem SignExtended24.ge_min {y : Container} (h : SignExtended24 y) : Config.MIN ≤ y.toInt := by
  rw [← int24_of_signExtended24 y h]
  exact int24_ge_min y

theorem SignExtended24.le_max {y : Container} (h : SignExtended24 y) : y.toInt ≤ Config.MAX := by
  rw [← int24_of_signExtended24 y h]
  exact int24_le_max y

/-- Each bit from bit 23 up is the sign bit of the 24-bit pattern (R23). -/
theorem SignExtended24.getLsbD_eq {y : Container} (h : SignExtended24 y) {k : Nat} (lo : 23 ≤ k) (hi : k < 32) :
    y.getLsbD k = (y.extractLsb' 0 24).msb := by
  rw [h, BitVec.getLsbD_signExtend, ← h]
  rcases Nat.eq_or_lt_of_le lo with rfl | hk
  · simp [BitVec.msb_eq_getLsbD_last]
  · simp [hi, Nat.not_lt.2 hk]

theorem toInt_ge_min (p : Int24) : Config.MIN ≤ p.toInt := BitVec.le_toInt p

theorem toInt_le_max (p : Int24) : p.toInt ≤ Config.MAX := Int.le_of_lt_add_one BitVec.toInt_lt

/-- The value of a sign extension is that of its 24-bit pattern, so it lies in the 24-bit range (R11, R22). -/
theorem signExtended24_sext32 (p : Int24) : SignExtended24 (sext32 p) := by
  have hp : (sext32 p).toInt = p.toInt := BitVec.toInt_signExtend_of_le (by decide)
  exact signExtended24_of_range _ (hp ▸ toInt_ge_min p) (hp ▸ toInt_le_max p)

/-! ### Every response is canonical -/

theorem respDiv_canonical (a b : Container) : (respDiv a b).Canonical := by
  by_cases hb : low24 b = 0#24
  · rw [respDiv_of_zero hb]
    trivial
  · rw [respDiv_of_ne_zero hb]
    exact success_clamp24_canonical _

theorem respShl_canonical (n : Nat) (a : Container) : (respShl n a).Canonical := by
  rcases Nat.lt_or_ge 23 n with hn | hn
  · rw [respShl_of_gt a hn]
    trivial
  · rw [respShl_of_le a hn]
    exact success_clamp24_canonical _

/-- SHR is not clamped: the shifted pattern is one of 24 bits (R102). -/
theorem respShr_canonical (n : Nat) (a : Container) : (respShr n a).Canonical := by
  rcases Nat.lt_or_ge 23 n with hn | hn
  · rw [respShr_of_gt a hn]
    trivial
  · rw [respShr_of_le a hn]
    exact success_canonical _ (toInt_ge_min _) (toInt_le_max _)

theorem respShldiv_canonical (n : Nat) (a b : Container) : (respShldiv n a b).Canonical := by
  by_cases hb : low24 b = 0#24
  · rw [respShldiv_of_zero hb]
    trivial
  rcases Nat.lt_or_ge 23 n with hn | hn
  · rw [respShldiv_of_gt hb hn]
    trivial
  · rw [respShldiv_of_le hb hn]
    exact success_clamp24_canonical _

/-- The ordering code of CMP is 1, 2 or 4 (R115, R117). -/
theorem respCmp_canonical (a b : Container) : (respCmp a b).Canonical := by
  unfold respCmp
  obtain ⟨-, h⟩ | ⟨-, h⟩ | ⟨-, h⟩ := orderBits_cases (int24 a) (int24 b) <;> rw [h] <;> decide

/-- FROMI16 is not clamped: a 16-bit value fits 24 bits (R120). -/
theorem respFromi16_canonical (a : Container) : (respFromi16 a).Canonical :=
  success_canonical _ (Int.le_trans (by decide) (int16_ge_min a)) (Int.le_trans (int16_le_max a) (by decide))

/-- The 16-bit range lies in the 24-bit range (R123). -/
theorem respToi16_canonical (a : Container) : (respToi16 a).Canonical := by
  have h := clamp16_eq (int24 a)
  exact success_canonical _ (by simp only [Config.MIN]; omega) (by simp only [Config.MAX]; omega)

/-- Every response of every instruction is canonical: a failure has no result, and each result is clamped
or has at most 24 bits of its own. -/
theorem instrResponse_canonical (i : Instr) (a b : Container) : (instrResponse i a b).Canonical := by
  cases i with
  | add => exact success_clamp24_canonical _
  | sub => exact success_clamp24_canonical _
  | mul => exact success_clamp24_canonical _
  | div => exact respDiv_canonical a b
  | shl n => exact respShl_canonical n a
  | shr n => exact respShr_canonical n a
  | shldiv n => exact respShldiv_canonical n a b
  | cmp => exact respCmp_canonical a b
  | fromi16 => exact respFromi16_canonical a
  | toi32 => exact signExtended24_sext32 (low24 a)
  | fromi32 => exact success_clamp24_canonical _
  | toi16 => exact respToi16_canonical a
  | reservedC => trivial
  | reservedD => trivial
  | reservedE => trivial
  | reservedF => trivial

/-! ### The record -/

/-- Recording a canonical response keeps the record canonical. -/
theorem State.RecordCanonical.record {s : State} {r : Response} (hs : s.RecordCanonical) (hr : r.Canonical) :
    (s.record r).RecordCanonical := by
  intro q hq
  rw [record_responses, List.mem_append, List.mem_singleton] at hq
  obtain hq | rfl := hq
  · exact hs q hq
  · exact hr

/-- Presenting a request leaves the record as it is. -/
theorem State.RecordCanonical.drive {s : State} (hs : s.RecordCanonical) (cw : CommandWord) (a b : Container)
    (rest : List Line) : (s.drive cw a b rest).RecordCanonical :=
  hs

/-- Settles O47: a step records one response, and every response is canonical. -/
theorem stepKeepsTheRecordCanonical : Obligations.StepKeepsTheRecordCanonical := by
  intro s t hs h
  obtain ⟨-, l, rest, a, b, -, -, -, rfl⟩ := step_cases h
  exact (hs.drive l.cw a b rest).record (instrResponse_canonical _ a b)

/-- Settles O35: a result is sign-extended from 24 bits, which bounds its value and fixes its top nine bits. -/
theorem everyResultLiesInTheRange : Obligations.EveryResultLiesInTheRange := by
  intro i s y h
  have hy : SignExtended24 y := by
    have hc := instrResponse_canonical i s.a s.b
    rwa [(exec_eq_next_iff i s (.ok y)).1 h] at hc
  refine ⟨hy.ge_min, hy.le_max, fun k lo hi => ?_⟩
  rw [hy.getLsbD_eq lo hi, hy.getLsbD_eq (by decide) (by decide)]

/-- Settles O48: nothing is recorded at reset. -/
theorem resetRecordIsCanonical : Obligations.ResetRecordIsCanonical := by
  intro r hr
  rw [reset_responses] at hr
  cases hr

end Sys2Proof.Machine

/-! SUPPORT. The command word (spec/30_encoding.md R55 to R62): an instruction is decoded exactly from its
operation code and, where its format reads it, its shift amount. So decode and encode agree, and each word
selects one row of the operation map. -/

namespace Sys2Proof.Machine

/-! ### The fields of a command word -/

/-- A command word is its two fields (R55). -/
theorem shiftField_append_opField (cw : CommandWord) : shiftField cw ++ opField cw = cw := by
  apply BitVec.eq_of_getLsbD_eq
  intro k hk
  rw [BitVec.getLsbD_append]
  rcases Nat.lt_or_ge k 4 with h | h
  · simp [opField, h]
  · have h5 : k - 4 < 5 := by omega
    have h4 : 4 + (k - 4) = k := by omega
    simp [shiftField, Nat.not_lt.2 h, h5, h4]

/-- The mask of R59 clears the shift amount and keeps the operation code. -/
theorem and_opMask (cw : CommandWord) : cw &&& 0x00F#9 = 0#5 ++ opField cw := by
  have hmask : (0x00F#9 : CommandWord) = 0#5 ++ BitVec.allOnes 4 := by decide
  apply BitVec.eq_of_getLsbD_eq
  intro k hk
  rw [hmask, BitVec.getLsbD_and, BitVec.getLsbD_append, BitVec.getLsbD_append]
  by_cases h : k < 4 <;> simp [-BitVec.reduceAllOnes, opField, h]

/-- Words that agree under the mask of R59 have the same operation code. -/
theorem opField_eq_of_and_opMask {v w : CommandWord} (h : v &&& 0x00F#9 = w &&& 0x00F#9) :
    opField v = opField w := by
  rw [and_opMask, and_opMask] at h
  rw [← opField_append 0#5 (opField v), h, opField_append]

/-! ### The decoder -/

/-- The operation reads the whole command word, so its shift amount too (R56). -/
abbrev ReadsShift (i : Instr) : Prop := readMaskCw i = 0x1FF#9

/-- An operation that does not read the shift amount reads the operation code alone (R56). -/
theorem readMaskCw_of_not_readsShift {i : Instr} (h : ¬ ReadsShift i) : readMaskCw i = 0x00F#9 := by
  unfold ReadsShift readMaskCw at *
  cases hf : format i <;> simp_all

/-- A word with the operation code of `i`, and its shift amount where `i` reads one, decodes to `i`. -/
theorem decode_eq_of_fields {cw : CommandWord} {i : Instr} (hop : opField cw = opCode i)
    (hn : ReadsShift i → shiftAmount cw = shiftOperand i) : decode cw = i := by
  unfold decode
  rw [hop]
  cases i
  case shl n => exact congrArg Instr.shl (hn rfl)
  case shr n => exact congrArg Instr.shr (hn rfl)
  case shldiv n => exact congrArg Instr.shldiv (hn rfl)
  all_goals rfl

/-- A word with the operation code of an instruction that reads no shift amount decodes to it. -/
theorem decode_eq_of_opField {cw : CommandWord} {i : Instr} (hi : ¬ ReadsShift i) (hop : opField cw = opCode i) :
    decode cw = i :=
  decode_eq_of_fields hop fun h => absurd h hi

/-- The decoded instruction has the operation code of the word, and its shift amount where it reads one:
checked at each of the 16 codes. -/
theorem decode_fields (cw : CommandWord) : opCode (decode cw) = opField cw ∧
    shiftOperand (decode cw) = if ReadsShift (decode cw) then shiftAmount cw else 0 := by
  unfold decode
  generalize shiftAmount cw = n
  generalize opField cw = op
  obtain ⟨k, hk⟩ := op
  interval_cases k <;> exact ⟨rfl, rfl⟩

theorem opCode_decode (cw : CommandWord) : opCode (decode cw) = opField cw := (decode_fields cw).1

theorem shiftOperand_decode_of_readsShift {cw : CommandWord} (h : ReadsShift (decode cw)) :
    shiftOperand (decode cw) = shiftAmount cw :=
  (decode_fields cw).2.trans (if_pos h)

theorem shiftOperand_decode_of_not_readsShift {cw : CommandWord} (h : ¬ ReadsShift (decode cw)) :
    shiftOperand (decode cw) = 0 :=
  (decode_fields cw).2.trans (if_neg h)

/-- SHL, SHR and SHLDIV are the operations that read the shift amount (R56, R59). -/
theorem readsShift_iff_opCode (i : Instr) :
    ReadsShift i ↔ opCode i = 0x4#4 ∨ opCode i = 0x5#4 ∨ opCode i = 0x6#4 := by
  cases i <;> simp [ReadsShift, readMaskCw, format, opCode]

/-! ### Decode and encode -/

/-- An instruction is well formed exactly if the field can carry its shift amount, 0 where it has none. -/
theorem wellFormed_eq_shiftEncodable (i : Instr) : wellFormed i = shiftEncodable (shiftOperand i) := by
  cases i <;> rfl

theorem shiftAmount_encode {i : Instr} (h : wellFormed i = true) : shiftAmount (encode i) = shiftOperand i :=
  shiftAmount_append _ _ (wellFormed_eq_shiftEncodable i ▸ h)

theorem decode_encode {i : Instr} (h : wellFormed i = true) : decode (encode i) = i :=
  decode_eq_of_fields (Laws.OpField.of_any i) fun _ => shiftAmount_encode h

theorem wellFormed_decode (cw : CommandWord) : wellFormed (decode cw) = true := by
  rw [wellFormed_eq_shiftEncodable]
  by_cases h : ReadsShift (decode cw)
  · rw [shiftOperand_decode_of_readsShift h]
    exact decide_eq_true (shiftAmount_lt cw)
  · rw [shiftOperand_decode_of_not_readsShift h]
    rfl

theorem encode_decode_of_readsShift {cw : CommandWord} (h : ReadsShift (decode cw)) :
    encode (decode cw) = cw := by
  rw [encode, opCode_decode, shiftOperand_decode_of_readsShift h, shiftAmount, BitVec.ofNat_toNat,
    BitVec.setWidth_eq, shiftField_append_opField]

theorem encode_decode_of_not_readsShift {cw : CommandWord} (h : ¬ ReadsShift (decode cw)) :
    encode (decode cw) = cw &&& 0x00F#9 := by
  rw [encode, opCode_decode, shiftOperand_decode_of_not_readsShift h, and_opMask]

/-- Settles O1: the encoded word has the operation code and the shift amount of the instruction. -/
theorem decodeOfEncodeIsTheInstruction : Obligations.DecodeOfEncodeIsTheInstruction :=
  fun _ h => decode_encode h

/-- Settles O2, by whether the decoded operation reads the shift amount. -/
theorem encodeOfDecodeKeepsTheBitsRead : Obligations.EncodeOfDecodeKeepsTheBitsRead := by
  intro cw
  refine ⟨wellFormed_decode cw, ?_⟩
  have hreads := readsShift_iff_opCode (decode cw)
  rw [opCode_decode] at hreads
  by_cases h : ReadsShift (decode cw)
  · exact (encode_decode_of_readsShift h).trans (if_pos (hreads.1 h)).symm
  · exact (encode_decode_of_not_readsShift h).trans (if_neg (mt hreads.2 h)).symm

/-! ### The operation map -/

/-- The row of an instruction: its operation code as the pattern, under the mask of R59. -/
def rowOf (i : Instr) : Row := ⟨mnemonic i, 0#5 ++ opCode i, 0x00F#9⟩

/-- Every row has the mask of R59, so a word selects rows by its operation code alone. -/
theorem rowsOf_eq_filter_pattern (cw : CommandWord) :
    rowsOf cw = operationMap.filter fun r => 0#5 ++ opField cw == r.pattern := by
  have hmask : ∀ r ∈ operationMap, r.mask = 0x00F#9 := by decide
  refine List.filter_congr fun r hr => ?_
  rw [hmask r hr, and_opMask]

/-- A word with the operation code of `i` selects the row of `i` and no other. -/
theorem rowsOf_of_opField {cw : CommandWord} {i : Instr} (hop : opField cw = opCode i) :
    rowsOf cw = [rowOf i] := by
  rw [rowsOf_eq_filter_pattern, hop, rowOf]
  cases i <;> dsimp only [opCode] <;> rfl

/-- Settles O3: the one row is that of the decoded instruction. -/
theorem oneRowMatchesEveryCommandWord : Obligations.OneRowMatchesEveryCommandWord :=
  fun cw => ⟨rowOf (decode cw), rowsOf_of_opField (opCode_decode cw).symm, rfl, rfl⟩

/-- Settles O4, by decoding the sixteen words. -/
theorem writtenWordsDecode : Obligations.WrittenWordsDecode := by
  unfold Obligations.WrittenWordsDecode
  decide

/-! ### Executing a decoded word -/

/-- Settles O30: a reserved code alone decides the instruction, and the instruction alone its response. -/
theorem reservedCodesFailAlways : Obligations.ReservedCodesFailAlways := by
  refine ⟨fun _ => decode_eq_of_opField (i := .reservedC) (by decide),
    fun _ => decode_eq_of_opField (i := .reservedD) (by decide),
    fun _ => decode_eq_of_opField (i := .reservedE) (by decide),
    fun _ => decode_eq_of_opField (i := .reservedF) (by decide), fun s => ?_⟩
  simp only [exec_eq_next_iff]
  exact ⟨rfl, rfl, rfl, rfl⟩

/-- `F` answers a word as its decoded instruction does: checked at each of the 16 codes (R67). -/
theorem instrResponse_decode (cw : CommandWord) (a b : Container) :
    instrResponse (decode cw) a b = respond cw a b := by
  unfold decode respond
  have hk : (opField cw).toNat < 16 := (opField cw).isLt
  generalize (opField cw).toNat = k at hk ⊢
  interval_cases k <;> rfl

/-- Settles O36: an instruction records its response, which for a decoded word is that of `F`. -/
theorem execOfDecodeIsTheTopLevelFunction : Obligations.ExecOfDecodeIsTheTopLevelFunction := by
  intro s
  rw [exec_eq_next_iff, instrResponse_decode]

/-! ### The bits an operation reads -/

/-- Containers that agree on their low `w` bits have the same field there. -/
theorem extractLsb'_eq_of_bits {w : Nat} {c d : Container} (h : ∀ k, k < w → c.getLsbD k = d.getLsbD k) :
    c.extractLsb' 0 w = d.extractLsb' 0 w := by
  apply BitVec.eq_of_getLsbD_eq
  intro k hk
  simp [hk, h k hk]

/-- A response is a function of the bits of `a` and `b` that the format reads (R56, R57). -/
theorem instrResponse_eq_of_bitsRead {i : Instr} {a a' b b' : Container}
    (ha : a.extractLsb' 0 (readWidthA i) = a'.extractLsb' 0 (readWidthA i))
    (hb : b.extractLsb' 0 (readWidthB i) = b'.extractLsb' 0 (readWidthB i)) :
    instrResponse i a b = instrResponse i a' b' := by
  have h24 {c d : Container} (h : low24 c = low24 d) : int24 c = int24 d := congrArg BitVec.toInt h
  cases i with
  | add => simp only [instrResponse, respAdd, h24 ha, h24 hb]
  | sub => simp only [instrResponse, respSub, h24 ha, h24 hb]
  | mul => simp only [instrResponse, respMul, h24 ha, h24 hb]
  | div => simp only [instrResponse, respDiv, h24 ha, h24 hb]
  | shl n => simp only [instrResponse, respShl, h24 ha]
  | shr n =>
    have hp : low24 a = low24 a' := ha
    simp only [instrResponse, respShr, hp]
  | shldiv n => simp only [instrResponse, respShldiv, h24 ha, h24 hb]
  | cmp => simp only [instrResponse, respCmp, h24 ha, h24 hb]
  | fromi16 => exact congrArg (fun p : I16 => success p.toInt) ha
  | toi32 => exact congrArg (fun p : Int24 => Response.ok (sext32 p)) ha
  | fromi32 =>
    have hc : a = a' := by simpa [readWidthA] using ha
    simp only [instrResponse, hc]
  | toi16 => simp only [instrResponse, respToi16, h24 ha]
  | reservedC => rfl
  | reservedD => rfl
  | reservedE => rfl
  | reservedF => rfl

/-- Words that agree on the bits the operation of one reads decode alike (R56, R57). -/
theorem decode_eq_of_bitsRead {v w : CommandWord}
    (h : v &&& readMaskCw (decode v) = w &&& readMaskCw (decode v)) : decode v = decode w := by
  by_cases hr : ReadsShift (decode v)
  · have hall : readMaskCw (decode v) = BitVec.allOnes 9 := hr
    rw [hall, BitVec.and_allOnes, BitVec.and_allOnes] at h
    rw [h]
  · rw [readMaskCw_of_not_readsShift hr] at h
    exact (decode_eq_of_opField hr ((opField_eq_of_and_opMask h).symm.trans (opCode_decode v).symm)).symm

/-- Settles O37: the response and the decoded instruction are functions of the bits read. -/
theorem responsesDependOnlyOnTheBitsRead : Obligations.ResponsesDependOnlyOnTheBitsRead := by
  refine ⟨fun i s t ha hb => ⟨instrResponse i s.a s.b, exec_eq_record i s, ?_⟩, fun _ _ => decode_eq_of_bitsRead⟩
  rw [exec_eq_next_iff]
  exact (instrResponse_eq_of_bitsRead (extractLsb'_eq_of_bits ha) (extractLsb'_eq_of_bits hb)).symm

/-! ### The units with exact-width ports -/

/-- The response that a unit's answer is, its 24-bit result widened to the container (R29, R69). -/
def unitResponse : Except FailCode Int24 → Response
  | .ok q => .ok (q.signExtend 32)
  | .error c => .fail c

/-- Widening a clamped 24-bit result is encoding it in 32 bits: the clamped value fits both (R10, R29). -/
theorem signExtend_enc24_clamp24 (v : Int) : (enc24 (clamp24 v)).signExtend 32 = enc32 (clamp24 v) := by
  have hv : (enc24 (clamp24 v)).toInt = clamp24 v := by
    have lo := clamp24_ge_min v
    have hi := clamp24_le_max v
    rw [enc24, BitVec.toInt_ofInt]
    exact Int.bmod_eq_of_le lo (by simp only [Config.MAX] at hi; omega)
  rw [BitVec.signExtend, hv, enc32]

/-- Widening a clamped 16-bit result is encoding it in 32 bits (R10, R123). -/
theorem signExtend_ofInt_clamp16 (v : Int) :
    (BitVec.ofInt 16 (clamp16 v)).signExtend 32 = enc32 (clamp16 v) := by
  have hv : (BitVec.ofInt 16 (clamp16 v)).toInt = clamp16 v := by
    rw [BitVec.toInt_ofInt, clamp16_eq]
    exact Int.bmod_eq_of_le (by omega) (by omega)
  rw [BitVec.signExtend, hv, enc32]

theorem success_clamp24_eq (v : Int) : success (clamp24 v) = .ok ((enc24 (clamp24 v)).signExtend 32) := by
  rw [signExtend_enc24_clamp24, success]

theorem respDiv_eq_unit (a b : Container) : respDiv a b = unitResponse (div24 (low24 a) (low24 b)) := by
  unfold div24
  split
  next hb => rw [respDiv_of_zero hb, unitResponse]
  next hb => rw [respDiv_of_ne_zero hb, unitResponse, signExtend_enc24_clamp24]; rfl

theorem respShl_eq_unit (n : ShiftField) (a : Container) :
    respShl n.toNat a = unitResponse (shl24 (low24 a) n) := by
  unfold shl24
  split
  next hn => rw [respShl_of_gt a hn, unitResponse]
  next hn => rw [respShl_of_le a (Nat.not_lt.1 hn), unitResponse, signExtend_enc24_clamp24]; rfl

theorem respShr_eq_unit (n : ShiftField) (a : Container) :
    respShr n.toNat a = unitResponse (shr24 (low24 a) n) := by
  unfold shr24
  split
  next hn => rw [respShr_of_gt a hn, unitResponse]
  next hn => rw [respShr_of_le a (Nat.not_lt.1 hn), unitResponse]; rfl

theorem respShldiv_eq_unit (n : ShiftField) (a b : Container) :
    respShldiv n.toNat a b = unitResponse (shldiv24 (low24 a) n (low24 b)) := by
  unfold shldiv24
  split
  next hb => rw [respShldiv_of_zero hb, unitResponse]
  next hb =>
    split
    next hn => rw [respShldiv_of_gt hb hn, unitResponse]
    next hn => rw [respShldiv_of_le hb (Nat.not_lt.1 hn), unitResponse, signExtend_enc24_clamp24]; rfl

/-- FROMI16 widens in two stages, through 24 bits (R120). -/
theorem respFromi16_eq_unit (a : Container) :
    respFromi16 a = .ok ((sext16to24 (low16 a)).signExtend 32) := by
  have h : (sext16to24 (low16 a)).toInt = int16 a := BitVec.toInt_signExtend_of_le (by decide)
  rw [BitVec.signExtend, h]
  rfl

theorem respToi16_eq_unit (a : Container) : respToi16 a = .ok ((sat24to16 (low24 a)).signExtend 32) := by
  rw [sat24to16, signExtend_ofInt_clamp16]
  rfl

/-- Settles O38: each arm is its unit with the result widened, failures carried over. -/
theorem unitsAreTheArmsWithoutContainers : Obligations.UnitsAreTheArmsWithoutContainers := by
  rintro s _ _ n rfl rfl
  simp only [exec_eq_next_iff]
  exact ⟨success_clamp24_eq _, success_clamp24_eq _, success_clamp24_eq _, respDiv_eq_unit _ _,
    respShl_eq_unit _ _, respShr_eq_unit _ _, respShldiv_eq_unit _ _ _, rfl, respFromi16_eq_unit _, rfl,
    success_clamp24_eq _, respToi16_eq_unit _⟩

end Sys2Proof.Machine

/-! SUPPORT. ADD, SUB, MUL and DIV (spec/40_arithmetic.md R81 to R87): each answers its exact result clamped to
24 bits. When that saturates is read off the clamp; the bit-level tests are the library's signed overflow of the
24-bit sum and difference, and the size of the 48-bit product. -/

namespace Sys2Proof.Machine

/-! ### The exact result, clamped -/

/-- An instruction whose response is a clamped value records a container of that value (R12, R29). -/
theorem exec_clamped {i : Instr} {s : State} {v : Int} (h : instrResponse i s.a s.b = success (clamp24 v)) :
    ∃ y : Container, exec i s = .next { s with responses := s.responses ++ [.ok y] } ∧
      y.toInt = max (-8388608) (min 8388607 v) :=
  ⟨_, (exec_eq_next_iff i s _).2 h, enc32_clamp24_toInt v⟩

theorem exec_div_of_zero {s : State} (h : s.b.extractLsb' 0 24 = 0#24) :
    exec .div s = .next { s with responses := s.responses ++ [.fail .divByZero] } :=
  (exec_eq_next_iff _ s _).2 (respDiv_of_zero h)

/-- DIV by a nonzero pattern, with the library's quotient (R13, R84). -/
theorem instrResponse_div_of_ne_zero {a b : Container} (h : low24 b ≠ 0#24) :
    instrResponse .div a b = success (clamp24 (Int.tdiv (int24 a) (int24 b))) := by
  rw [← tdiv_eq]
  exact respDiv_of_ne_zero h

/-- Settles O5: the response of ADD is the clamped sum. -/
theorem addIsTheClampedSum : Obligations.AddIsTheClampedSum :=
  ⟨fun _ => decode_eq_of_opField (i := .add) (by decide), fun _ => exec_clamped rfl⟩

/-- Settles O6: the response of SUB is the clamped difference. -/
theorem subIsTheClampedDifference : Obligations.SubIsTheClampedDifference :=
  ⟨fun _ => decode_eq_of_opField (i := .sub) (by decide), fun _ => exec_clamped rfl⟩

/-- Settles O7: the response of MUL is the clamped product. -/
theorem mulIsTheClampedProduct : Obligations.MulIsTheClampedProduct :=
  ⟨fun _ => decode_eq_of_opField (i := .mul) (by decide), fun _ => exec_clamped rfl⟩

/-- Settles O8: DIV fails at a zero pattern, and elsewhere its response is the clamped quotient. -/
theorem divIsTheClampedTruncatedQuotient : Obligations.DivIsTheClampedTruncatedQuotient :=
  ⟨fun _ => decode_eq_of_opField (i := .div) (by decide), fun _ => exec_div_of_zero,
    fun _ h => exec_clamped (instrResponse_div_of_ne_zero h)⟩

/-! ### The quotient by its remainder -/

/-- The library's remainder is small and has the sign of the dividend (R86). -/
theorem tmod_small_of_sign (a : Int) {b : Int} (hb : b ≠ 0) :
    (a.tmod b).natAbs < b.natAbs ∧ (a.tmod b = 0 ∨ (a.tmod b).sign = a.sign) := by
  constructor
  · rw [Int.natAbs_tmod]
    exact Nat.mod_lt _ (Int.natAbs_pos.2 hb)
  · rw [Int.sign_tmod]
    by_cases h : b ∣ a
    · exact .inl (Int.tmod_eq_zero_of_dvd h)
    · exact .inr (if_neg h)

/-- A quotient with a small remainder of the sign of the dividend is the truncated one (R86). -/
theorem eq_tdiv_of_remainder {a b q rem : Int} (hb : b ≠ 0) (ha : a = q * b + rem) (hlt : rem.natAbs < b.natAbs)
    (hsign : rem = 0 ∨ rem.sign = a.sign) : q = Int.tdiv a b := by
  have hsum : rem + b * q = a := by rw [ha, Int.mul_comm, Int.add_comm]
  rcases Int.le_total 0 a with h0 | h0
  · have hrem : 0 ≤ rem := by
      rcases hsign with h | h
      · exact h.ge
      · exact Int.sign_nonneg_iff.1 (h ▸ Int.sign_nonneg_iff.2 h0)
    exact ((Int.tdiv_tmod_unique h0 hb).2 ⟨hsum, hrem, by omega⟩).1.symm
  · have hrem : rem ≤ 0 := by
      rcases hsign with h | h
      · exact h.le
      · exact Int.sign_nonpos_iff.1 (h ▸ Int.sign_nonpos_iff.2 h0)
    exact ((Int.tdiv_tmod_unique' h0 hb).2 ⟨hsum, by omega, hrem⟩).1.symm

/-- Settles O9: the library's quotient and remainder exist, and every such quotient is the one DIV clamps. -/
theorem divQuotientIsCharacterisedByItsRemainder : Obligations.DivQuotientIsCharacterisedByItsRemainder := by
  refine ⟨fun s h => ?_, fun _ => exec_div_of_zero⟩
  have hb : int24 s.b ≠ 0 := fun e => h ((int24_eq_zero_iff s.b).1 e)
  refine ⟨⟨_, _, (Int.tdiv_mul_add_tmod (int24 s.a) (int24 s.b)).symm, tmod_small_of_sign _ hb⟩, ?_⟩
  intro q rem ha hlt hsign
  obtain rfl := eq_tdiv_of_remainder hb ha hlt hsign
  exact ⟨rfl, exec_clamped (instrResponse_div_of_ne_zero h)⟩

/-! ### Saturation -/

/-- A clamped result differs from the exact one iff that is out of range, and is then the bound it passed. -/
theorem exec_saturates {i : Instr} {s : State} {v : Int} (h : instrResponse i s.a s.b = success (clamp24 v)) :
    ∃ y : Container, exec i s = .next { s with responses := s.responses ++ [.ok y] } ∧
      (y.toInt ≠ v ↔ v > 8388607 ∨ v < -8388608) ∧
      (v > 8388607 → y.toInt = 8388607) ∧ (v < -8388608 → y.toInt = -8388608) := by
  obtain ⟨y, hexec, hy⟩ := exec_clamped h
  exact ⟨y, hexec, by omega, by omega, by omega⟩

/-- `MIN / -1` is the one quotient of 24-bit operands above the 24-bit range (R87): a divisor of size 2 or more
halves the dividend. -/
theorem tdiv_gt_max_iff {a : Int} (lo : -8388608 ≤ a) (hi : a ≤ 8388607) (b : Int) :
    a.tdiv b > 8388607 ↔ a = -8388608 ∧ b = -1 := by
  have hcases : b = 0 ∨ b = 1 ∨ b = -1 ∨ 2 ≤ b.natAbs := by omega
  rcases hcases with rfl | rfl | rfl | hb
  · rw [Int.tdiv_zero]; omega
  · rw [Int.tdiv_one]; omega
  · rw [Int.tdiv_neg, Int.tdiv_one]; omega
  · have hq : (a.tdiv b).natAbs ≤ a.natAbs / 2 :=
      (Int.natAbs_tdiv a b).trans_le (Nat.div_le_div_left hb Nat.two_pos)
    omega

/-- No quotient of 24-bit operands lies below the 24-bit range: none is larger in size than the dividend. -/
theorem tdiv_not_lt_min {a : Int} (lo : -8388608 ≤ a) (hi : a ≤ 8388607) (b : Int) :
    ¬ a.tdiv b < -8388608 := by
  have hq := Int.natAbs_tdiv_le_natAbs a b
  omega

/-- Settles O10: each result is a clamped one, and for DIV only `MIN / -1` is out of range. -/
theorem saturationHappensExactlyOutsideTheRange : Obligations.SaturationHappensExactlyOutsideTheRange := by
  rintro s _ _ rfl rfl
  refine ⟨exec_saturates rfl, exec_saturates rfl, exec_saturates rfl, fun hB => ?_⟩
  have hb : low24 s.b ≠ 0#24 := fun e => hB ((int24_eq_zero_iff s.b).2 e)
  have hgt := tdiv_gt_max_iff (int24_ge_min s.a) (int24_le_max s.a) (int24 s.b)
  have hlt := tdiv_not_lt_min (int24_ge_min s.a) (int24_le_max s.a) (int24 s.b)
  obtain ⟨y, hexec, hne, habove, -⟩ := exec_saturates (instrResponse_div_of_ne_zero hb)
  exact ⟨y, hexec, hne.trans ((or_iff_left hlt).trans hgt), fun h => habove (hgt.2 h)⟩

/-! ### SUB as ADD of the negated pattern -/

/-- An encoded 24-bit value reads back as itself (R10, R28). -/
theorem int24_enc32 {v : Int} (lo : Config.MIN ≤ v) (hi : v ≤ Config.MAX) : int24 (enc32 v) = v := by
  have hv : (enc32 v).toInt = v := enc32_toInt v (Int.le_trans (by decide) lo) (Int.le_trans hi (by decide))
  rw [int24_of_signExtended24 _ (signExtended24_of_range _ (hv.symm ▸ lo) (hv.symm ▸ hi)), hv]

/-- `MIN` is the value of one pattern (R22). -/
theorem int24_eq_min_iff (c : Container) : int24 c = Config.MIN ↔ low24 c = 0x800000#24 :=
  ⟨fun h => BitVec.eq_of_toInt_eq h, fun h => congrArg BitVec.toInt h⟩

/-- The negated pattern of a value other than `MIN` carries the negated value. -/
theorem int24_enc32_neg {b : Container} (h : low24 b ≠ 0x800000#24) : int24 (enc32 (-int24 b)) = -int24 b := by
  have hne : int24 b ≠ Config.MIN := fun e => h ((int24_eq_min_iff b).1 e)
  have lo := int24_ge_min b
  have hi := int24_le_max b
  apply int24_enc32 <;> simp only [Config.MIN, Config.MAX] at * <;> omega

/-- Settles O11: the negated pattern carries `-B` but for `MIN`, where the difference is `A + 2^23`. -/
theorem subIsAddOfTheNegationButForMin : Obligations.SubIsAddOfTheNegationButForMin := by
  constructor
  · intro s h
    refine ⟨_, exec_eq_record .sub s, (exec_eq_next_iff .add _ _).2 ?_⟩
    change success (clamp24 (int24 s.a + int24 (enc32 (-int24 s.b)))) = _
    rw [int24_enc32_neg h, ← Int.sub_eq_add_neg]
    rfl
  · intro s h
    obtain ⟨y, hexec, hy⟩ := exec_clamped (i := .sub) (s := s) rfl
    refine ⟨y, hexec, ?_⟩
    have hb : int24 s.b = -8388608 := (int24_eq_min_iff s.b).2 h
    have lo : -8388608 ≤ int24 s.a := int24_ge_min s.a
    change y.toInt = if int24 s.a < 0 then int24 s.a + 8388608 else 8388607
    rw [hy, hb]
    split <;> omega

/-! ### The bit-level overflow tests -/

/-- A value that a 24-bit pattern carries is not clamped. -/
theorem success_clamp24_toInt (p : Int24) : success (clamp24 p.toInt) = .ok (p.signExtend 32) := by
  rw [clamp24_of_mem _ (toInt_ge_min p) (toInt_le_max p)]
  rfl

/-- A value out of range saturates toward the side a sign bit names. -/
theorem success_clamp24_of_out_of_range {v : Int} {neg : Bool} (hneg : neg = true ↔ v < 0)
    (h : 8388608 ≤ v ∨ v < -8388608) :
    success (clamp24 v) = .ok (if neg then 0xFF800000#32 else 0x007FFFFF#32) := by
  rw [success, clamp24_eq]
  cases neg with
  | true =>
    have hv : max (-8388608) (min 8388607 v) = -8388608 := by have := hneg.1 rfl; omega
    rw [hv]; rfl
  | false =>
    have hv : max (-8388608) (min 8388607 v) = 8388607 := by have := mt hneg.2 Bool.false_ne_true; omega
    rw [hv]; rfl

theorem getLsbD_last_iff_toInt_neg {w : Nat} (x : BitVec w) : x.getLsbD (w - 1) = true ↔ x.toInt < 0 := by
  rw [← BitVec.msb_eq_getLsbD_last, BitVec.msb_eq_toInt, decide_eq_true_iff]

/-- The overflow test of the sum: equal sign bits that the sum does not have. -/
theorem saddOverflow_iff_bits (x y : Int24) : x.saddOverflow y = true ↔
    x.getLsbD 23 = y.getLsbD 23 ∧ (x + y).getLsbD 23 ≠ x.getLsbD 23 := by
  simp [BitVec.saddOverflow_eq, BitVec.msb_eq_getLsbD_last]

/-- The overflow test of the difference: unequal sign bits, and a difference without that of the minuend. -/
theorem ssubOverflow_iff_bits (x y : Int24) : x.ssubOverflow y = true ↔
    x.getLsbD 23 ≠ y.getLsbD 23 ∧ (x - y).getLsbD 23 ≠ x.getLsbD 23 := by
  rw [BitVec.ssubOverflow_eq]
  simp only [BitVec.msb_eq_getLsbD_last]
  cases x.getLsbD 23 <;> cases y.getLsbD 23 <;> simp

/-- A result `p` of a 24-bit adder with an overflow test: where the test fires, the exact value is out of range on
the side of the first operand `x`, for it differs from `x` by at most `2^23`; elsewhere `p` is the exact value. -/
theorem success_clamp24_of_overflow_test {x p : Int24} {v : Int} {ovf : Bool}
    (lo : x.toInt - 8388608 ≤ v) (hi : v ≤ x.toInt + 8388608)
    (hout : ovf = true → 8388608 ≤ v ∨ v < -8388608) (hin : ¬ ovf = true → p.toInt = v) :
    success (clamp24 v) = .ok (
      if ovf = true then (if x.getLsbD 23 then 0xFF800000#32 else 0x007FFFFF#32) else p.signExtend 32) := by
  by_cases h : ovf = true
  · have hv := hout h
    rw [if_pos h]
    exact success_clamp24_of_out_of_range ((getLsbD_last_iff_toInt_neg x).trans (by omega)) hv
  · rw [if_neg h, ← hin h]
    exact success_clamp24_toInt p

theorem success_clamp24_add (x y : Int24) : success (clamp24 (x.toInt + y.toInt)) = .ok (
    if x.saddOverflow y = true then (if x.getLsbD 23 then 0xFF800000#32 else 0x007FFFFF#32)
    else (x + y).signExtend 32) := by
  have lo : -8388608 ≤ y.toInt := toInt_ge_min y
  have hi : y.toInt ≤ 8388607 := toInt_le_max y
  exact success_clamp24_of_overflow_test (by omega) (by omega)
    (fun h => by simpa [BitVec.saddOverflow] using h) BitVec.toInt_add_of_not_saddOverflow

theorem success_clamp24_sub (x y : Int24) : success (clamp24 (x.toInt - y.toInt)) = .ok (
    if x.ssubOverflow y = true then (if x.getLsbD 23 then 0xFF800000#32 else 0x007FFFFF#32)
    else (x - y).signExtend 32) := by
  have lo : -8388608 ≤ y.toInt := toInt_ge_min y
  have hi : y.toInt ≤ 8388607 := toInt_le_max y
  exact success_clamp24_of_overflow_test (by omega) (by omega)
    (fun h => by simpa [BitVec.ssubOverflow] using h) BitVec.toInt_sub_of_not_ssubOverflow

/-- Settles O12: the bit-level tests are the signed overflow of the 24-bit sum and difference. -/
theorem addSubAgreeWithTheBitLevelOverflowTest : Obligations.AddSubAgreeWithTheBitLevelOverflowTest := by
  rintro s _ _ rfl rfl
  simp only [exec_eq_next_iff, ← saddOverflow_iff_bits, ← ssubOverflow_iff_bits]
  exact ⟨success_clamp24_add _ _, success_clamp24_sub _ _⟩

/-- The 48-bit signed product of 24-bit operands is exact (R83). -/
theorem signExtend_mul_toInt (x y : Int24) : (x.signExtend 48 * y.signExtend 48).toInt = x.toInt * y.toInt := by
  have lo : -(2 ^ 46) ≤ x.toInt * y.toInt := BitVec.le_toInt_mul_toInt
  have hi : x.toInt * y.toInt ≤ 2 ^ 46 := BitVec.toInt_mul_toInt_le
  rw [BitVec.toInt_mul, BitVec.toInt_signExtend_of_le (by decide), BitVec.toInt_signExtend_of_le (by decide)]
  exact Int.bmod_eq_of_le (by omega) (by omega)

/-- Bits 47 to 23 of a product are equal iff it is in the 24-bit range. -/
theorem extractLsb'_equal_bits_iff (p : BitVec 48) :
    (p.extractLsb' 23 25 = 0#25 ∨ p.extractLsb' 23 25 = BitVec.allOnes 25) ↔
      -8388608 ≤ p.toInt ∧ p.toInt < 8388608 := by
  have hp := p.isLt
  simp only [← BitVec.toNat_inj, BitVec.extractLsb'_toNat, Nat.shiftRight_eq_div_pow, BitVec.toNat_ofNat,
    BitVec.toNat_allOnes, BitVec.toInt_eq_toNat_cond]
  split <;> omega

/-- A 48-bit value in the 24-bit range is that of its low 24 bits. -/
theorem extractLsb'_toInt_of_mem {p : BitVec 48} (h : -8388608 ≤ p.toInt ∧ p.toInt < 8388608) :
    (p.extractLsb' 0 24).toInt = p.toInt := by
  simp only [BitVec.extractLsb'_toNat, Nat.shiftRight_zero, BitVec.toInt_eq_toNat_cond] at *
  split at h <;> split <;> omega

/-- The overflow test of a 48-bit product: its low 24 bits where bits 47 to 23 are equal, else the bound of the
side its sign bit names. -/
theorem success_clamp24_of_product (p : BitVec 48) : success (clamp24 p.toInt) = .ok (
    if p.extractLsb' 23 25 = 0#25 ∨ p.extractLsb' 23 25 = BitVec.allOnes 25
    then (p.extractLsb' 0 24).signExtend 32
    else if p.getLsbD 47 then 0xFF800000#32 else 0x007FFFFF#32) := by
  by_cases h : p.extractLsb' 23 25 = 0#25 ∨ p.extractLsb' 23 25 = BitVec.allOnes 25
  · rw [if_pos h, ← extractLsb'_toInt_of_mem ((extractLsb'_equal_bits_iff p).1 h)]
    exact success_clamp24_toInt _
  · rw [if_neg h]
    rw [extractLsb'_equal_bits_iff] at h
    exact success_clamp24_of_out_of_range (getLsbD_last_iff_toInt_neg p) (by omega)

/-- Settles O13: the 48-bit product is exact, and the test says whether it fits 24 bits. -/
theorem mulAgreesWithTheBitLevelOverflowTest : Obligations.MulAgreesWithTheBitLevelOverflowTest := by
  rintro s p rfl
  rw [exec_eq_next_iff, ← success_clamp24_of_product, signExtend_mul_toInt]
  rfl

end Sys2Proof.Machine

/-! SUPPORT. SHL, SHR and SHLDIV (spec/41_shift.md R100 to R104): SHL and SHLDIV answer a clamped value, SHR a
24-bit pattern that is not clamped. SHLDIV is DIV of any container that carries the exact `A * 2^n`; where SHL
clamps, its result carries another value. -/

namespace Sys2Proof.Machine

/-! ### SHL -/

theorem exec_shl_of_le {n : Nat} {s : State} (h : n ≤ 23) : exec (.shl n) s =
    .next { s with responses := s.responses ++ [.ok (enc32 (clamp24 (int24 s.a * 2 ^ n)))] } :=
  (exec_eq_next_iff _ s _).2 (respShl_of_le s.a h)

/-- SHL by an amount out of range records the failure, whatever `a` holds (R100). -/
theorem exec_shl_of_gt {n : Nat} {s : State} (h : 24 ≤ n) :
    exec (.shl n) s = .next { s with responses := s.responses ++ [.fail .shiftRange] } :=
  (exec_eq_next_iff _ s _).2 (respShl_of_gt s.a h)

/-- Settles O14: within range the response of SHL is the clamped shifted value. -/
theorem shlIsTheClampedShiftedValue : Obligations.ShlIsTheClampedShiftedValue :=
  ⟨fun _ h => decode_eq_of_fields h fun _ => rfl, fun _ s h => exec_clamped (respShl_of_le s.a h),
    fun _ _ => exec_shl_of_gt⟩

/-- The shifted value is in the 24-bit range iff the operand fits the bits the shift leaves: divide the bounds
`2^23 = 2^(23-n) * 2^n` by `2^n` (R101). -/
theorem mul_two_pow_mem_iff {n : Nat} (h : n ≤ 23) (A : Int) :
    (-8388608 ≤ A * 2 ^ n ∧ A * 2 ^ n ≤ 8388607) ↔ -(2 ^ (23 - n)) ≤ A ∧ A ≤ 2 ^ (23 - n) - 1 := by
  have hbound : (2 : Int) ^ (23 - n) * 2 ^ n = 8388608 := by
    rw [← pow_add, Nat.sub_add_cancel h]
    rfl
  have hpos : (0 : Int) < 2 ^ n := by positivity
  have hlo : -(2 ^ (23 - n)) * 2 ^ n ≤ A * 2 ^ n ↔ -(2 ^ (23 - n)) ≤ A := mul_le_mul_iff_left₀ hpos
  have hhi : A * 2 ^ n < 2 ^ (23 - n) * 2 ^ n ↔ A < 2 ^ (23 - n) := mul_lt_mul_iff_left₀ hpos
  rw [Int.neg_mul, hbound] at hlo
  rw [hbound] at hhi
  omega

/-- The low pattern of a container is its value modulo `2^24` (R28). -/
theorem low24_eq_ofInt (y : Container) : low24 y = BitVec.ofInt 24 y.toInt :=
  (BitVec.setWidth_eq_extractLsb' (by decide)).symm.trans
    (BitVec.signExtend_eq_setWidth_of_le y (by decide)).symm

/-- Shifting a pattern left multiplies its value modulo `2^24` (R101). -/
theorem shiftLeft_eq_ofInt (p : Int24) (n : Nat) : p <<< n = BitVec.ofInt 24 (p.toInt * 2 ^ n) := by
  have hpow : BitVec.ofInt 24 (2 ^ n) = BitVec.twoPow 24 n := by
    have hcast : (2 : Int) ^ n = ((2 ^ n : Nat) : Int) := by norm_cast
    apply BitVec.eq_of_toNat_eq
    rw [hcast, BitVec.ofInt_natCast, BitVec.toNat_ofNat, BitVec.toNat_twoPow]
  rw [BitVec.ofInt_mul, BitVec.ofInt_toInt, hpow, BitVec.mul_twoPow_eq_shiftLeft]

/-- A container of the exact shifted value carries the shifted pattern: both are `A * 2^n` modulo `2^24` (R101). -/
theorem low24_eq_shiftLeft {y a : Container} {n : Nat} (h : y.toInt = int24 a * 2 ^ n) :
    low24 y = low24 a <<< n := by
  rw [low24_eq_ofInt, h, shiftLeft_eq_ofInt, int24]

/-- Settles O15: SHL saturates iff the shifted value, which has the sign of `A`, is out of range. -/
theorem shlIsExactOnItsStatedRange : Obligations.ShlIsExactOnItsStatedRange := by
  rintro n s _ hn rfl
  obtain ⟨y, hexec, hne, habove, hbelow⟩ := exec_saturates (i := .shl n) (s := s) (respShl_of_le s.a hn)
  have hpos : (0 : Int) < 2 ^ n := by positivity
  refine ⟨y, hexec, ?_, low24_eq_shiftLeft, fun h hA => habove ?_, fun h hA => hbelow ?_⟩
  · have hexact : y.toInt = int24 s.a * 2 ^ n ↔ -8388608 ≤ int24 s.a * 2 ^ n ∧ int24 s.a * 2 ^ n ≤ 8388607 := by
      omega
    exact hexact.trans (mul_two_pow_mem_iff hn _)
  · have hv : 0 < int24 s.a * 2 ^ n := Int.mul_pos hA hpos
    exact (hne.1 h).resolve_right (by omega)
  · have hv : int24 s.a * 2 ^ n < 0 := Int.mul_neg_of_neg_of_pos hA hpos
    exact (hne.1 h).resolve_left (by omega)

/-! ### SHR -/

theorem exec_shr_of_gt {n : Nat} {s : State} (h : 24 ≤ n) :
    exec (.shr n) s = .next { s with responses := s.responses ++ [.fail .shiftRange] } :=
  (exec_eq_next_iff _ s _).2 (respShr_of_gt s.a h)

/-- SHR within range records the sign extension of the shifted pattern (R29, R102). -/
theorem exec_shr_of_le {n : Nat} {s : State} (h : n ≤ 23) :
    exec (.shr n) s =
      .next { s with responses := s.responses ++ [.ok (sext32 (arithShiftRight (low24 s.a) n))] } :=
  (exec_eq_next_iff _ s _).2 (respShr_of_le s.a h)

theorem sext32_toInt (p : Int24) : (sext32 p).toInt = p.toInt := BitVec.toInt_signExtend_of_le (by decide)

/-- Below bit 24 a sign extension has the bits of its pattern (R11). -/
theorem sext32_getLsbD {k : Nat} (h : k < 24) (p : Int24) : (sext32 p).getLsbD k = p.getLsbD k := by
  have hk : k < 32 := by omega
  rw [sext32, BitVec.getLsbD_signExtend, decide_eq_true hk, Bool.true_and, if_pos h]

/-- The bits of an arithmetic right shift: those of the operand, `n` places down, below `n` copies of its sign
bit (R102). -/
theorem arithShiftRight_low24_getLsbD {k : Nat} (h : k < 24) (a : Container) (n : Nat) :
    (arithShiftRight (low24 a) n).getLsbD k = if k + n < 24 then a.getLsbD (k + n) else a.getLsbD 23 := by
  rw [arithShiftRight, BitVec.getLsbD_sshiftRight, Nat.add_comm n k]
  by_cases hkn : k + n < 24
  · simp [low24, h, hkn]
  · simp [low24, h, hkn, BitVec.msb_eq_getLsbD_last]

/-- Settles O16: the response of SHR is the shifted pattern, whose value is the floor. -/
theorem shrIsTheFloorAndCopiesTheSignBit : Obligations.ShrIsTheFloorAndCopiesTheSignBit := by
  refine ⟨fun _ h => decode_eq_of_fields h fun _ => rfl, fun n s hn => ⟨_, exec_shr_of_le hn, ?_, fun k hk => ?_⟩,
    fun _ _ => exec_shr_of_gt⟩
  · rw [sext32_toInt, arithShiftRight_toInt]
    rfl
  · rw [sext32_getLsbD hk, arithShiftRight_low24_getLsbD hk]

/-! ### SHLDIV -/

/-- SHLDIV within range by a nonzero pattern, with the library's quotient (R13, R103). -/
theorem instrResponse_shldiv_of_le {n : Nat} {a b : Container} (hb : low24 b ≠ 0#24) (hn : n ≤ 23) :
    instrResponse (.shldiv n) a b = success (clamp24 (Int.tdiv (int24 a * 2 ^ n) (int24 b))) := by
  rw [← tdiv_eq]
  exact respShldiv_of_le hb hn

/-- Settles O17: a zero pattern is tested first, then the amount, and elsewhere the response is the clamped
quotient of the unclamped shifted value. -/
theorem shldivDividesTheUnclampedShiftedValue : Obligations.ShldivDividesTheUnclampedShiftedValue :=
  ⟨fun _ h => decode_eq_of_fields h fun _ => rfl,
    fun _ s hb => (exec_eq_next_iff _ s _).2 (respShldiv_of_zero hb),
    fun _ s hb hn => (exec_eq_next_iff _ s _).2 (respShldiv_of_gt hb hn),
    fun _ _ hb hn => exec_clamped (instrResponse_shldiv_of_le hb hn)⟩

/-- SHLDIV is DIV of any container that carries the exact shifted value, the zero divisor included (R103, R104). -/
theorem respShldiv_eq_respDiv {n : Nat} {a z : Container} (hn : n ≤ 23) (hz : int24 z = int24 a * 2 ^ n)
    (b : Container) : respShldiv n a b = respDiv z b := by
  by_cases hb : low24 b = 0#24
  · rw [respShldiv_of_zero hb, respDiv_of_zero hb]
  · rw [respShldiv_of_le hb hn, respDiv_of_ne_zero hb, hz]

/-- SHLDIV by 1 is SHL: the exact shifted value is its own quotient, and the failure is the same (R103). -/
theorem respShldiv_of_one (n : Nat) (a : Container) {b : Container} (h : low24 b = 1#24) :
    respShldiv n a b = respShl n a := by
  have hb : low24 b ≠ 0#24 := by rw [h]; decide
  have hB : int24 b = 1 := congrArg BitVec.toInt h
  rcases Nat.lt_or_ge 23 n with hn | hn
  · rw [respShldiv_of_gt hb hn, respShl_of_gt a hn]
  · rw [respShldiv_of_le hb hn, respShl_of_le a hn, hB, tdiv_eq, Int.tdiv_one]

/-- Settles O19: `a` itself carries `A * 2^0`, and division by 1 changes nothing. -/
theorem shldivByZeroShiftIsDivAndByOneIsShl : Obligations.ShldivByZeroShiftIsDivAndByOneIsShl := by
  constructor
  · intro s
    have hz : int24 s.a = int24 s.a * 2 ^ 0 := by rw [pow_zero, Int.mul_one]
    rw [exec_eq_record .div]
    exact (exec_eq_next_iff _ s _).2 (respShldiv_eq_respDiv (Nat.zero_le 23) hz s.b)
  · intro n s h
    rw [exec_eq_record (.shl n)]
    exact (exec_eq_next_iff _ s _).2 (respShldiv_of_one n s.a h)

/-! ### The fused operation and the two steps -/

/-- Dividends of sizes apart by the divisor's size or more have quotients of different sizes. -/
theorem natAbs_tdiv_lt {z v B : Int} (hB : 0 < B.natAbs) (h : z.natAbs + B.natAbs ≤ v.natAbs) :
    (z.tdiv B).natAbs < (v.tdiv B).natAbs := by
  rw [Int.natAbs_tdiv, Int.natAbs_tdiv]
  calc z.natAbs / B.natAbs < (z.natAbs + B.natAbs) / B.natAbs := by
        rw [Nat.add_div_right _ hB]
        exact Nat.lt_succ_self _
    _ ≤ v.natAbs / B.natAbs := Nat.div_le_div_right h

/-- Quotients of different sizes stay different when clamped, since that of the 24-bit dividend is at most half of
it and so no bound of the range (R104). -/
theorem clamped_tdiv_ne {z v B : Int} (hB : 2 ≤ B.natAbs) (hz : z.natAbs ≤ 8388608)
    (h : z.natAbs + B.natAbs ≤ v.natAbs) :
    max (-8388608) (min 8388607 (v.tdiv B)) ≠ max (-8388608) (min 8388607 (z.tdiv B)) := by
  have hlt : (z.tdiv B).natAbs < (v.tdiv B).natAbs := natAbs_tdiv_lt (by omega) h
  have hhalf : (z.tdiv B).natAbs ≤ z.natAbs / 2 :=
    (Int.natAbs_tdiv z B).trans_le (Nat.div_le_div_left hB Nat.two_pos)
  omega

/-- The result of a clamped operation reads back as the clamped value (R23, R28). -/
theorem int24_enc32_clamp24 (v : Int) : int24 (enc32 (clamp24 v)) = max (-8388608) (min 8388607 v) := by
  rw [int24_enc32 (clamp24_ge_min v) (clamp24_le_max v), clamp24_eq]

/-- Where the shifted value is in range, SHL carries it exactly and DIV goes on as SHLDIV does (R104). -/
theorem fused_agrees_in_range {n : Nat} {s : State} (hn : n ≤ 23) (lo : -8388608 ≤ int24 s.a * 2 ^ n)
    (hi : int24 s.a * 2 ^ n ≤ 8388607) : ∃ (z : Container) (r : Response),
      exec (.shl n) s = .next { s with responses := s.responses ++ [.ok z] } ∧
      exec (.shldiv n) s = .next { s with responses := s.responses ++ [r] } ∧
      exec .div { s with a := z } = .next { s with a := z, responses := s.responses ++ [r] } := by
  have hz : int24 (enc32 (clamp24 (int24 s.a * 2 ^ n))) = int24 s.a * 2 ^ n := by
    rw [int24_enc32_clamp24]
    omega
  exact ⟨_, _, exec_shl_of_le hn, exec_eq_record _ s,
    (exec_eq_next_iff .div _ _).2 (respShldiv_eq_respDiv hn hz s.b).symm⟩

/-- Where the shifted value is out of range by the divisor's size or more, SHL carries a bound of the range, and
the two quotients differ (R104). -/
theorem fused_differs_out_of_range {n : Nat} {s : State} (hn : n ≤ 23) (hB : 2 ≤ (int24 s.b).natAbs)
    (h : 8388607 + (int24 s.b).natAbs ≤ int24 s.a * 2 ^ n ∨ int24 s.a * 2 ^ n ≤ -8388608 - (int24 s.b).natAbs) :
    ∃ y z w : Container,
      exec (.shldiv n) s = .next { s with responses := s.responses ++ [.ok y] } ∧
      exec (.shl n) s = .next { s with responses := s.responses ++ [.ok z] } ∧
      exec .div { s with a := z } = .next { s with a := z, responses := s.responses ++ [.ok w] } ∧ y ≠ w := by
  have hb : low24 s.b ≠ 0#24 := by
    rw [Ne, ← int24_eq_zero_iff]
    omega
  obtain ⟨y, hexec, hy⟩ := exec_clamped (s := s) (instrResponse_shldiv_of_le hb hn)
  have hz := int24_enc32_clamp24 (int24 s.a * 2 ^ n)
  obtain ⟨w, hdiv, hw⟩ := exec_clamped (s := { s with a := enc32 (clamp24 (int24 s.a * 2 ^ n)) })
    (instrResponse_div_of_ne_zero hb)
  refine ⟨y, _, w, hexec, exec_shl_of_le hn, hdiv, fun e => ?_⟩
  rw [e, hw] at hy
  dsimp only at hy
  exact clamped_tdiv_ne hB (by omega) (by omega) hy.symm

/-- `(MAX << 1) / 2`: MAX fused, 4194303 in two steps (R104). -/
theorem fused_max_shl_one_div_two {s : State} (ha : low24 s.a = 0x7FFFFF#24) (hb : low24 s.b = 2#24) :
    exec (.shldiv 1) s = .next { s with responses := s.responses ++ [.ok 0x007FFFFF#32] } ∧
    exec (.shl 1) s = .next { s with responses := s.responses ++ [.ok 0x007FFFFF#32] } ∧
    exec .div { s with a := 0x007FFFFF#32 } =
      .next { s with a := 0x007FFFFF#32, responses := s.responses ++ [.ok 0x003FFFFF#32] } := by
  have hA : int24 s.a = 8388607 := congrArg BitVec.toInt ha
  have hB : int24 s.b = 2 := congrArg BitVec.toInt hb
  have hmax : int24 0x007FFFFF#32 = 8388607 := by decide
  have hb0 : low24 s.b ≠ 0#24 := by rw [hb]; decide
  refine ⟨(exec_eq_next_iff _ s _).2 ?_, (exec_eq_next_iff _ s _).2 ?_, (exec_eq_next_iff .div _ _).2 ?_⟩
  · rw [instrResponse_shldiv_of_le hb0 (by decide), hA, hB]
    rfl
  · rw [instrResponse, respShl_of_le s.a (by decide), hA]
    rfl
  · rw [instrResponse_div_of_ne_zero hb0, hmax, hB]
    rfl

/-- Settles O18: in range the two steps carry the exact value, far out of range they divide a bound instead. -/
theorem fusedShiftDivideIsNotTheTwoSteps : Obligations.FusedShiftDivideIsNotTheTwoSteps := by
  refine ⟨fun _ _ hn lo hi => fused_agrees_in_range hn lo hi, ?_, fun _ ha hb => fused_max_shl_one_div_two ha hb⟩
  rintro n s _ _ hn rfl rfl hB h
  exact fused_differs_out_of_range hn hB h

end Sys2Proof.Machine

/-! SUPPORT. CMP (spec/42_compare.md R115 to R117): each of its three codes answers one of the three orders of the
operand values, so the laws of CMP are those of the integers. A result carries the value its container has; and
inverting bit 23 of a pattern adds `2^23` to its value, which keeps the order. -/

namespace Sys2Proof.Machine

/-! ### The code and the order -/

/-- The container CMP answers with (R115). -/
def cmpCode (a b : Container) : Container := (orderBits (int24 a) (int24 b)).zeroExtend 32

theorem exec_cmp (s : State) :
    exec .cmp s = .next { s with responses := s.responses ++ [.ok (cmpCode s.a s.b)] } :=
  exec_eq_record .cmp s

/-- The three values of the code: the ordering bits, widened (R115). -/
theorem cmpCode_cases (a b : Container) :
    (int24 a < int24 b ∧ cmpCode a b = 1#32) ∨ (int24 a = int24 b ∧ cmpCode a b = 2#32) ∨
      (int24 a > int24 b ∧ cmpCode a b = 4#32) := by
  obtain ⟨h, hbits⟩ | ⟨h, hbits⟩ | ⟨h, hbits⟩ := orderBits_cases (int24 a) (int24 b)
  · exact .inl ⟨h, congrArg (BitVec.zeroExtend 32) hbits⟩
  · exact .inr (.inl ⟨h, congrArg (BitVec.zeroExtend 32) hbits⟩)
  · exact .inr (.inr ⟨h, congrArg (BitVec.zeroExtend 32) hbits⟩)

theorem cmpCode_eq_one_iff (a b : Container) : cmpCode a b = 1#32 ↔ int24 a < int24 b := by
  obtain ⟨h, hc⟩ | ⟨h, hc⟩ | ⟨h, hc⟩ := cmpCode_cases a b
  · simp [hc, h]
  · simp [hc, h]
  · simp [hc, h.le]

theorem cmpCode_eq_two_iff (a b : Container) : cmpCode a b = 2#32 ↔ int24 a = int24 b := by
  obtain ⟨h, hc⟩ | ⟨h, hc⟩ | ⟨h, hc⟩ := cmpCode_cases a b
  · simp [hc, h.ne]
  · simp [hc, h]
  · simp [hc, h.ne']

theorem cmpCode_eq_four_iff (a b : Container) : cmpCode a b = 4#32 ↔ int24 b < int24 a := by
  obtain ⟨h, hc⟩ | ⟨h, hc⟩ | ⟨h, hc⟩ := cmpCode_cases a b
  · simp [hc, h.le]
  · simp [hc, h]
  · simp [hc, h]

/-- The code as a chain of comparisons (R115). -/
theorem cmpCode_eq_ite (a b : Container) :
    cmpCode a b = if int24 a < int24 b then 1#32 else if int24 a = int24 b then 2#32 else 4#32 := by
  split
  next hlt => exact (cmpCode_eq_one_iff a b).2 hlt
  next hlt =>
    split
    next heq => exact (cmpCode_eq_two_iff a b).2 heq
    next heq => exact (cmpCode_eq_four_iff a b).2 (by omega)

/-- Settles O20: CMP answers the code of the order. -/
theorem cmpIsTheSignedOrder : Obligations.CmpIsTheSignedOrder :=
  ⟨fun _ => decode_eq_of_opField (i := .cmp) (by decide), fun s => ⟨_, exec_cmp s, cmpCode_eq_ite s.a s.b⟩⟩

/-! ### The order laws -/

/-- Operands are equal exactly if their patterns are: no two patterns carry one value (R22, R116). -/
theorem int24_eq_iff (a b : Container) : int24 a = int24 b ↔ low24 a = low24 b := BitVec.toInt_inj

/-- Settles O21: each law is one of the order of the integers, read through the three codes. -/
theorem cmpIsAStrictTotalOrder : Obligations.CmpIsAStrictTotalOrder := by
  refine ⟨cmpCode, exec_cmp, fun x y => ?_, fun x y => ?_, fun x y => ?_, fun x => ?_, fun x y z hxy hyz => ?_⟩
  · exact (cmpCode_cases x y).imp And.right (Or.imp And.right And.right)
  · rw [cmpCode_eq_one_iff, cmpCode_eq_four_iff]
  · exact (cmpCode_eq_two_iff x y).trans (int24_eq_iff x y)
  · exact (cmpCode_eq_two_iff x x).2 rfl
  · rw [cmpCode_eq_one_iff] at hxy hyz ⊢
    exact hxy.trans hyz

/-! ### The order of results and of patterns -/

/-- A result of an instruction has the value that its low 24 bits carry (R23, R117). -/
theorem int24_of_exec {i : Instr} {s : State} {y : Container}
    (h : exec i s = .next { s with responses := s.responses ++ [.ok y] }) : int24 y = y.toInt := by
  have hc : (instrResponse i s.a s.b).Canonical := instrResponse_canonical i s.a s.b
  rw [(exec_eq_next_iff i s (.ok y)).1 h] at hc
  exact int24_of_signExtended24 y hc

/-- Inverting bit 23 adds `2^23` to the value: it keeps the 23 bits below and turns the sign bit over (R117). -/
theorem toNat_xor_signBit (p : Int24) : ((p ^^^ 0x800000#24).toNat : Int) = p.toInt + 8388608 := by
  have hp := p.isLt
  have hlow : (p.toNat ^^^ 2 ^ 23) % 2 ^ 23 = p.toNat % 2 ^ 23 := by
    rw [Nat.xor_mod_two_pow, Nat.mod_self, Nat.xor_zero]
  have hsign : (p.toNat ^^^ 2 ^ 23) / 2 ^ 23 = 1 - p.toNat / 2 ^ 23 := by
    have hbit : p.toNat / 2 ^ 23 = 0 ∨ p.toNat / 2 ^ 23 = 1 := by omega
    rw [Nat.xor_div_two_pow, Nat.div_self (by decide)]
    obtain h | h := hbit <;> rw [h] <;> rfl
  have hxor : (p ^^^ 0x800000#24).toNat = p.toNat ^^^ 2 ^ 23 := BitVec.toNat_xor p _
  rw [hxor, BitVec.toInt_eq_toNat_cond]
  split <;> omega

/-- Settles O22: results carry their own values, and adding `2^23` to both operands keeps their order. -/
theorem cmpOrdersResultsByTheirValue : Obligations.CmpOrdersResultsByTheirValue := by
  refine ⟨fun i j u v s ha hb => ⟨_, exec_cmp s, ?_⟩, fun s => ⟨_, exec_cmp s, ?_⟩⟩
  · rw [cmpCode_eq_one_iff, int24_of_exec ha, int24_of_exec hb]
  · have ha := toNat_xor_signBit (low24 s.a)
    have hb := toNat_xor_signBit (low24 s.b)
    rw [cmpCode_eq_one_iff]
    change (low24 s.a).toInt < (low24 s.b).toInt ↔
      (low24 s.a ^^^ 0x800000#24).toNat < (low24 s.b ^^^ 0x800000#24).toNat
    omega

end Sys2Proof.Machine

/-! SUPPORT. FROMI16, TOI32, FROMI32 and TOI16 (spec/43_conversion.md R120 to R125): the two widening conversions
answer a sign extension, the two narrowing ones a clamped value. The value of each result is said once; the round
trips run from one such value to the next, since a result reads back as its own value. -/

namespace Sys2Proof.Machine

/-! ### Sign extensions on bits -/

/-- From the sign bit of its pattern up, the bits of a sign extension are copies of that bit (R11). -/
theorem getLsbD_signExtend_of_ge {m n k : Nat} (p : BitVec m) (lo : m ≤ k + 1) (hi : k < n) :
    (p.signExtend n).getLsbD k = p.msb := by
  rw [BitVec.getLsbD_signExtend, decide_eq_true hi, Bool.true_and]
  split
  next hk =>
    obtain rfl : k = m - 1 := by omega
    exact (BitVec.msb_eq_getLsbD_last p).symm
  next => rfl

/-- A field of the low 24 bits is that field of the container (R28). -/
theorem low24_extractLsb' {start len : Nat} (h : start + len ≤ 24) (c : Container) :
    (low24 c).extractLsb' start len = c.extractLsb' start len := by
  rw [low24, ← BitVec.setWidth_eq_extractLsb' (by decide), BitVec.extractLsb'_setWidth_of_le h]

theorem low24_getLsbD {k : Nat} (h : k < 24) (c : Container) : (low24 c).getLsbD k = c.getLsbD k := by
  simp [low24, h]

theorem low24_msb (c : Container) : (low24 c).msb = c.getLsbD 23 := by
  rw [BitVec.msb_eq_getLsbD_last, low24_getLsbD (by decide)]

theorem low16_msb (c : Container) : (low16 c).msb = c.getLsbD 15 := by
  simp [low16, BitVec.msb_eq_getLsbD_last]

/-! ### The value of each result -/

/-- FROMI16 records the 16-bit pattern, sign-extended (R120). -/
theorem exec_fromi16 (s : State) :
    exec .fromi16 s = .next { s with responses := s.responses ++ [.ok ((low16 s.a).signExtend 32)] } :=
  exec_eq_record .fromi16 s

theorem signExtend_low16_toInt (c : Container) : ((low16 c).signExtend 32).toInt = int16 c :=
  BitVec.toInt_signExtend_of_le (by decide)

/-- TOI32 records the 24-bit pattern, sign-extended (R121). -/
theorem exec_toi32 (s : State) :
    exec .toi32 s = .next { s with responses := s.responses ++ [.ok (sext32 (low24 s.a))] } :=
  exec_eq_record .toi32 s

theorem exec_fromi16_value (s : State) : ∃ y : Container,
    exec .fromi16 s = .next { s with responses := s.responses ++ [.ok y] } ∧ y.toInt = int16 s.a :=
  ⟨_, exec_fromi16 s, signExtend_low16_toInt s.a⟩

theorem exec_toi32_value (s : State) : ∃ y : Container,
    exec .toi32 s = .next { s with responses := s.responses ++ [.ok y] } ∧ y.toInt = int24 s.a :=
  ⟨_, exec_toi32 s, sext32_toInt _⟩

theorem exec_fromi32_value (s : State) : ∃ y : Container,
    exec .fromi32 s = .next { s with responses := s.responses ++ [.ok y] } ∧
      y.toInt = max (-8388608) (min 8388607 s.a.toInt) :=
  exec_clamped rfl

theorem exec_toi16_value (s : State) : ∃ y : Container,
    exec .toi16 s = .next { s with responses := s.responses ++ [.ok y] } ∧
      y.toInt = max (-32768) (min 32767 (int24 s.a)) :=
  ⟨_, exec_eq_record .toi16 s, enc32_clamp16_toInt _⟩

/-- Settles O23: the result is the sign extension of `a[15:0]`, whose low 24 bits carry the same value. -/
theorem fromi16IsExact : Obligations.Fromi16IsExact := by
  refine ⟨fun _ => decode_eq_of_opField (i := .fromi16) (by decide), fun s =>
    ⟨_, exec_fromi16 s, signExtend_low16_toInt s.a, ?_, fun k lo hi => ?_⟩⟩
  · calc low24 ((low16 s.a).signExtend 32)
      _ = BitVec.ofInt 24 (int16 s.a) := by rw [low24_eq_ofInt, signExtend_low16_toInt]
      _ = (low16 s.a).signExtend 24 := rfl
  · rw [getLsbD_signExtend_of_ge _ (by omega) hi, low16_msb]

/-- Settles O24: the result is the sign extension of `a[23:0]`. -/
theorem toi32ReplicatesBit23 : Obligations.Toi32ReplicatesBit23 := by
  refine ⟨fun _ => decode_eq_of_opField (i := .toi32) (by decide), fun s =>
    ⟨_, exec_toi32 s, sext32_toInt _, fun k hk => ?_⟩, fun s h => ?_⟩
  · split
    next hlow => rw [sext32_getLsbD hlow, low24_getLsbD hlow]
    next hhigh => rw [sext32, getLsbD_signExtend_of_ge _ (by omega) hk, low24_msb]
  · have hsext : sext32 (low24 s.a) = s.a := h.symm
    rw [exec_toi32, hsext]

/-- Settles O25: the response of FROMI32 is the clamped value of the container. -/
theorem fromi32IsTheClampedValue : Obligations.Fromi32IsTheClampedValue :=
  ⟨fun _ => decode_eq_of_opField (i := .fromi32) (by decide), exec_fromi32_value⟩

/-- Settles O26: the response of TOI16 is the clamped operand. -/
theorem toi16IsTheClampedValue : Obligations.Toi16IsTheClampedValue :=
  ⟨fun _ => decode_eq_of_opField (i := .toi16) (by decide), exec_toi16_value⟩

/-! ### The in-range tests on bits -/

/-- The top nine bits of a word are equal iff its value is one of the bits below and a sign bit: the quotient of
the pattern by `2^m` is then the least or the greatest of the 512 there are. -/
theorem extractLsb'_top_nine_equal_iff {m : Nat} (p : BitVec (m + 9)) :
    (p.extractLsb' m 9 = 0#9 ∨ p.extractLsb' m 9 = BitVec.allOnes 9) ↔ -(2 ^ m) ≤ p.toInt ∧ p.toInt < 2 ^ m := by
  have hpos : 0 < 2 ^ m := Nat.two_pow_pos m
  have hp : p.toNat < 2 ^ m * 512 := by simpa [Nat.pow_add] using p.isLt
  have htop : (p.extractLsb' m 9).toNat = p.toNat / 2 ^ m := by
    rw [BitVec.extractLsb'_toNat, Nat.shiftRight_eq_div_pow]
    exact Nat.mod_eq_of_lt (Nat.div_lt_of_lt_mul hp)
  have hzero : p.extractLsb' m 9 = 0#9 ↔ p.toNat < 2 ^ m := by
    rw [← BitVec.toNat_inj, htop]
    exact Nat.div_eq_zero_iff_lt hpos
  have hones : p.extractLsb' m 9 = BitVec.allOnes 9 ↔ 511 * 2 ^ m ≤ p.toNat := by
    rw [← BitVec.toNat_inj, htop]
    change p.toNat / 2 ^ m = 511 ↔ _
    rw [Nat.div_eq_iff hpos]
    omega
  have hcast : ((2 ^ m : Nat) : Int) = 2 ^ m := by norm_cast
  rw [hzero, hones, BitVec.toInt_eq_toNat_cond, Nat.pow_add]
  split <;> omega

/-- A value in the 16-bit range is that of the low 16 bits (R28, R123). -/
theorem int16_eq_int24 {c : Container} (lo : -32768 ≤ int24 c) (hi : int24 c < 32768) : int16 c = int24 c := by
  have hlow : low16 c = (low24 c).signExtend 16 := by
    rw [BitVec.signExtend_eq_setWidth_of_le _ (by decide), BitVec.setWidth_eq_extractLsb' (by decide),
      low24_extractLsb' (by decide), low16]
  rw [int16, hlow, BitVec.toInt_signExtend]
  exact Int.bmod_eq_of_le lo hi

/-- A value out of range is clamped toward the side a sign bit names (R12). -/
theorem clamp_of_out_of_range {v lo hi : Int} {neg : Bool} (hlo : lo < 0) (hhi : 0 ≤ hi) (hneg : neg = true ↔ v < 0)
    (h : hi < v ∨ v < lo) : clamp v lo hi = if neg then lo else hi := by
  unfold clamp
  obtain habove | hbelow := h
  · rw [if_pos habove, if_neg (mt hneg.1 (by omega))]
  · rw [if_neg (by omega), if_pos hbelow, if_pos (hneg.2 (by omega))]

/-- FROMI32 by its test on bits: nine equal top bits are a value in the 24-bit range (R122). -/
theorem respFromi32_eq_ite (a : Container) : respFromi32 a = .ok (
    if a.extractLsb' 23 9 = 0#9 ∨ a.extractLsb' 23 9 = BitVec.allOnes 9 then a
    else if a.getLsbD 31 then 0xFF800000#32 else 0x007FFFFF#32) := by
  have hrange := extractLsb'_top_nine_equal_iff (m := 23) a
  unfold respFromi32 int32
  split
  next h =>
    obtain ⟨lo, hi⟩ := hrange.1 h
    rw [clamp24_of_mem _ lo (Int.le_of_lt_add_one hi), success, enc32, BitVec.ofInt_toInt]
  next h =>
    rw [hrange] at h
    exact success_clamp24_of_out_of_range (getLsbD_last_iff_toInt_neg a) (by omega)

/-- TOI16 by its test on bits: nine equal bits at the top of the 24 are a value in the 16-bit range (R123). -/
theorem respToi16_eq_ite (a : Container) : respToi16 a = .ok (
    if a.extractLsb' 15 9 = 0#9 ∨ a.extractLsb' 15 9 = BitVec.allOnes 9 then (low16 a).signExtend 32
    else if a.getLsbD 23 then 0xFFFF8000#32 else 0x00007FFF#32) := by
  have hrange := extractLsb'_top_nine_equal_iff (m := 15) (low24 a)
  rw [low24_extractLsb' (by decide)] at hrange
  change _ ↔ -32768 ≤ int24 a ∧ int24 a < 32768 at hrange
  unfold respToi16
  split
  next h =>
    obtain ⟨lo, hi⟩ := hrange.1 h
    have hv : clamp16 (int24 a) = int24 a := by rw [clamp16_eq]; omega
    rw [hv, ← int16_eq_int24 lo hi]
    rfl
  next h =>
    rw [hrange] at h
    have hneg : (low24 a).getLsbD 23 = true ↔ int24 a < 0 := getLsbD_last_iff_toInt_neg (low24 a)
    have hout : 32767 < int24 a ∨ int24 a < -32768 := by omega
    rw [clamp16, clamp_of_out_of_range (by decide) (by decide) hneg hout, low24_getLsbD (by decide)]
    cases a.getLsbD 23 <;> rfl

/-- Settles O27: each test says whether the clamp changes the operand. -/
theorem narrowingAgreesWithTheBitTests : Obligations.NarrowingAgreesWithTheBitTests :=
  fun s => ⟨(exec_eq_next_iff .fromi32 s _).2 (respFromi32_eq_ite s.a),
    (exec_eq_next_iff .toi16 s _).2 (respToi16_eq_ite s.a)⟩

/-! ### The round trips -/

/-- Settles O28: the second conversion reads the value of the first one's result, which is in its range. -/
theorem conversionRoundTrips : Obligations.ConversionRoundTrips := by
  intro s
  have lo16 : -32768 ≤ int16 s.a := int16_ge_min s.a
  have hi16 : int16 s.a ≤ 32767 := int16_le_max s.a
  have lo24 : -8388608 ≤ int24 s.a := int24_ge_min s.a
  have hi24 : int24 s.a ≤ 8388607 := int24_le_max s.a
  obtain ⟨f16, hf16, vf16⟩ := exec_fromi16_value s
  obtain ⟨t32, ht32, vt32⟩ := exec_toi32_value s
  obtain ⟨f32, hf32, vf32⟩ := exec_fromi32_value s
  obtain ⟨t16, ht16, vt16⟩ := exec_toi16_value s
  refine ⟨?_, ?_, ?_, ?_, ?_⟩
  · obtain ⟨z, hz, vz⟩ := exec_toi32_value { s with a := f16 }
    exact ⟨f16, z, hf16, hz, vz.trans ((int24_of_exec hf16).trans vf16)⟩
  · obtain ⟨z, hz, vz⟩ := exec_toi16_value { s with a := f16 }
    refine ⟨f16, z, hf16, hz, vz.trans ?_⟩
    change max (-32768) (min 32767 (int24 f16)) = int16 s.a
    rw [int24_of_exec hf16]
    omega
  · obtain ⟨z, hz, vz⟩ := exec_fromi32_value { s with a := t32 }
    refine ⟨t32, z, ht32, hz, vz.trans ?_⟩
    change max (-8388608) (min 8388607 t32.toInt) = int24 s.a
    omega
  · obtain ⟨z, hz, vz⟩ := exec_toi32_value { s with a := f32 }
    exact ⟨f32, z, hf32, hz, vz.trans ((int24_of_exec hf32).trans vf32)⟩
  · obtain ⟨z, hz, vz⟩ := exec_fromi16_value { s with a := t16 }
    have hread : int24 t16 = t16.toInt := int24_of_exec ht16
    have hlow : int16 t16 = int24 t16 := int16_eq_int24 (by omega) (by omega)
    exact ⟨t16, z, ht16, hz, vz.trans (hlow.trans (hread.trans vt16))⟩

/-! ### The ranges of the results -/

/-- A sign extension of a 16-bit pattern has a 16-bit value and seventeen equal top bits (R125). -/
theorem signExtend16_range_and_top_bits (p : I16) :
    -32768 ≤ (p.signExtend 32).toInt ∧ (p.signExtend 32).toInt ≤ 32767 ∧
      ∀ k : Nat, 15 ≤ k → k < 32 → (p.signExtend 32).getLsbD k = (p.signExtend 32).getLsbD 31 := by
  rw [BitVec.toInt_signExtend_of_le (by decide)]
  refine ⟨BitVec.le_toInt p, Int.le_of_lt_add_one BitVec.toInt_lt, fun k lo hi => ?_⟩
  rw [getLsbD_signExtend_of_ge p (by omega) hi, getLsbD_signExtend_of_ge p (by decide) (by decide)]

/-- FROMI16 and TOI16 answer a sign extension of a 16-bit pattern (R120, R123). -/
theorem instrResponse_eq_signExtend16 {i : Instr} (hi : i = .fromi16 ∨ i = .toi16) (a b : Container) :
    ∃ p : I16, instrResponse i a b = .ok (p.signExtend 32) := by
  obtain rfl | rfl := hi
  · exact ⟨low16 a, rfl⟩
  · exact ⟨_, respToi16_eq_unit a⟩

/-- No conversion fails (R120 to R123). -/
theorem exec_conversion {i : Instr} (hi : i = .fromi16 ∨ i = .toi16 ∨ i = .toi32 ∨ i = .fromi32) (s : State) :
    ∃ y : Container, exec i s = .next { s with responses := s.responses ++ [.ok y] } := by
  obtain rfl | rfl | rfl | rfl := hi <;> exact ⟨_, exec_eq_record _ s⟩

/-- Settles O29: every result lies in the 24-bit range, and those of FROMI16 and TOI16 extend a 16-bit pattern. -/
theorem conversionResultsHaveEqualTopBits : Obligations.ConversionResultsHaveEqualTopBits := by
  intro s i hi
  obtain ⟨y, hexec⟩ := exec_conversion hi s
  obtain ⟨hmin, hmax, htop⟩ := everyResultLiesInTheRange i s y hexec
  refine ⟨y, hexec, hmin, hmax, htop, fun h16 => ?_⟩
  obtain ⟨p, hp⟩ := instrResponse_eq_signExtend16 h16 s.a s.b
  obtain rfl : y = p.signExtend 32 := by simpa [hp] using ((exec_eq_next_iff i s (.ok y)).1 hexec).symm
  exact signExtend16_range_and_top_bits p

end Sys2Proof.Machine

/-! SUPPORT. The failures (spec/60_exceptions.md R136 to R152): an instruction fails by its operation, the zero test
of `b[23:0]` and its shift amount alone. Said once, as the failure code of every response, it gives the failure
function of R152 for a decoded word, the operations that can fail, and the causes of each code. -/

namespace Sys2Proof.Machine

/-! ### The failure code of every response -/

/-- The failure of an instruction with `b` on its port, `none` where it succeeds; the zero divisor of SHLDIV goes
before its shift amount (R142). -/
def instrFailure : Instr → Container → Option FailCode
  | .div, b => if low24 b = 0#24 then some .divByZero else none
  | .shl n, _ => if 24 ≤ n then some .shiftRange else none
  | .shr n, _ => if 24 ≤ n then some .shiftRange else none
  | .shldiv n, b =>
    if low24 b = 0#24 then some .divByZero else if 24 ≤ n then some .shiftRange else none
  | .reservedC, _ => some .illegalOp
  | .reservedD, _ => some .illegalOp
  | .reservedE, _ => some .illegalOp
  | .reservedF, _ => some .illegalOp
  | .add, _ => none
  | .sub, _ => none
  | .mul, _ => none
  | .cmp, _ => none
  | .fromi16, _ => none
  | .toi32, _ => none
  | .fromi32, _ => none
  | .toi16, _ => none

@[simp] theorem failCode?_ok (y : Container) : (Response.ok y).failCode? = none := rfl
@[simp] theorem failCode?_fail (c : FailCode) : (Response.fail c).failCode? = some c := rfl

theorem eq_fail_iff_failCode? (r : Response) (c : FailCode) : r = .fail c ↔ r.failCode? = some c := by
  cases r <;> simp

theorem exists_eq_ok_iff_failCode? (r : Response) : (∃ y, r = .ok y) ↔ r.failCode? = none := by
  cases r <;> simp

/-- The status code of a response is that of its failure, and 0 without one (R136). -/
theorem err_eq_failCode? (r : Response) : r.err = (r.failCode?.map FailCode.status).getD 0b00#2 := by
  cases r <;> rfl

theorem respDiv_failCode? (a b : Container) :
    (respDiv a b).failCode? = if low24 b = 0#24 then some .divByZero else none := by
  by_cases hb : low24 b = 0#24
  · rw [respDiv_of_zero hb, failCode?_fail, if_pos hb]
  · rw [respDiv_of_ne_zero hb, failCode?_ok, if_neg hb]

theorem respShl_failCode? (n : Nat) (a : Container) :
    (respShl n a).failCode? = if 24 ≤ n then some .shiftRange else none := by
  rcases Nat.lt_or_ge n 24 with hn | hn
  · rw [respShl_of_le a (Nat.le_of_lt_succ hn), failCode?_ok, if_neg (Nat.not_le.2 hn)]
  · rw [respShl_of_gt a hn, failCode?_fail, if_pos hn]

theorem respShr_failCode? (n : Nat) (a : Container) :
    (respShr n a).failCode? = if 24 ≤ n then some .shiftRange else none := by
  rcases Nat.lt_or_ge n 24 with hn | hn
  · rw [respShr_of_le a (Nat.le_of_lt_succ hn), failCode?_ok, if_neg (Nat.not_le.2 hn)]
  · rw [respShr_of_gt a hn, failCode?_fail, if_pos hn]

theorem respShldiv_failCode? (n : Nat) (a b : Container) : (respShldiv n a b).failCode? =
    if low24 b = 0#24 then some .divByZero else if 24 ≤ n then some .shiftRange else none := by
  by_cases hb : low24 b = 0#24
  · rw [respShldiv_of_zero hb, failCode?_fail, if_pos hb]
  rw [if_neg hb]
  rcases Nat.lt_or_ge n 24 with hn | hn
  · rw [respShldiv_of_le hb (Nat.le_of_lt_succ hn), failCode?_ok, if_neg (Nat.not_le.2 hn)]
  · rw [respShldiv_of_gt hb hn, failCode?_fail, if_pos hn]

/-- Every response fails as its instruction does, whatever `a` holds (R152). -/
theorem instrResponse_failCode? (i : Instr) (a b : Container) :
    (instrResponse i a b).failCode? = instrFailure i b := by
  cases i with
  | div => exact respDiv_failCode? a b
  | shl n => exact respShl_failCode? n a
  | shr n => exact respShr_failCode? n a
  | shldiv n => exact respShldiv_failCode? n a b
  | _ => rfl

theorem exec_fails_iff (i : Instr) (s : State) (c : FailCode) :
    exec i s = .next { s with responses := s.responses ++ [.fail c] } ↔ instrFailure i s.b = some c := by
  rw [exec_eq_next_iff, eq_fail_iff_failCode?, instrResponse_failCode?]

theorem exec_succeeds_iff (i : Instr) (s : State) :
    (∃ y, exec i s = .next { s with responses := s.responses ++ [.ok y] }) ↔ instrFailure i s.b = none := by
  simp only [exec_eq_next_iff, exists_eq_ok_iff_failCode?, instrResponse_failCode?]

/-! ### The failure function -/

/-- A decoded word fails as the failure function says: checked at each of the 16 codes (R152). -/
theorem instrFailure_decode (cw : CommandWord) (b : Container) : instrFailure (decode cw) b = failureOf cw b := by
  unfold decode failureOf
  have hk : (opField cw).toNat < 16 := (opField cw).isLt
  generalize (opField cw).toNat = k at hk ⊢
  interval_cases k <;> simp [instrFailure]

/-- The status code of the failure function, each test one on a field of the word. -/
theorem status_failureOf (cw : CommandWord) (b : Container) :
    ((failureOf cw b).map FailCode.status).getD 0b00#2 =
      if 12 ≤ (opField cw).toNat then 0b11#2
      else if (opField cw = 0x3#4 ∨ opField cw = 0x6#4) ∧ low24 b = 0#24 then 0b01#2
      else if (opField cw = 0x4#4 ∨ opField cw = 0x5#4 ∨ opField cw = 0x6#4) ∧ 24 ≤ shiftAmount cw then 0b10#2
      else 0b00#2 := by
  have hop (k : Nat) (hk : k < 16) : (opField cw).toNat = k ↔ opField cw = BitVec.ofNat 4 k := by
    rw [BitVec.toNat_eq_nat, and_iff_right hk]
  simp only [failureOf, hop 0x3 (by decide), hop 0x4 (by decide), hop 0x5 (by decide), hop 0x6 (by decide)]
  split_ifs <;> rfl

/-- Settles O31: the status of a decoded word is that of its failure function. -/
theorem statusFollowsTheFailureFunction : Obligations.StatusFollowsTheFailureFunction := by
  intro s
  refine ⟨_, exec_eq_record _ s, ?_⟩
  rw [err_eq_failCode?, instrResponse_failCode?, instrFailure_decode]
  exact status_failureOf s.cw s.b

/-! ### The operations that fail, and the causes of each code -/

theorem instrFailure_div_eq_some_iff (b : Container) (c : FailCode) :
    instrFailure .div b = some c ↔ low24 b = 0#24 ∧ c = .divByZero := by
  simp [instrFailure, eq_comm]

theorem instrFailure_shl_eq_some_iff (n : Nat) (b : Container) (c : FailCode) :
    instrFailure (.shl n) b = some c ↔ 24 ≤ n ∧ c = .shiftRange := by
  simp [instrFailure, eq_comm]

/-- SHR fails as SHL does (R100). -/
theorem instrFailure_shr_eq_some_iff (n : Nat) (b : Container) (c : FailCode) :
    instrFailure (.shr n) b = some c ↔ 24 ≤ n ∧ c = .shiftRange :=
  instrFailure_shl_eq_some_iff n b c

theorem instrFailure_shldiv_eq_some_iff (n : Nat) (b : Container) (c : FailCode) :
    instrFailure (.shldiv n) b = some c ↔
      (low24 b = 0#24 ∧ c = .divByZero) ∨ (low24 b ≠ 0#24 ∧ 24 ≤ n ∧ c = .shiftRange) := by
  by_cases hb : low24 b = 0#24 <;> simp [instrFailure, hb, eq_comm]

/-- Settles O32: eight operations have no failure, and the others only the codes written in theirs. -/
theorem onlyTheStatedOperationsFail : Obligations.OnlyTheStatedOperationsFail := by
  intro s
  simp only [exec_succeeds_iff, exec_fails_iff, instrFailure_div_eq_some_iff, instrFailure_shl_eq_some_iff,
    instrFailure_shr_eq_some_iff, instrFailure_shldiv_eq_some_iff, or_self_iff]
  refine ⟨?_, fun c h => h.2, fun n c h => h.2, fun n c h => ?_⟩
  · rintro i (rfl | rfl | rfl | rfl | rfl | rfl | rfl | rfl) <;> rfl
  · obtain ⟨-, hc⟩ | ⟨-, -, hc⟩ := h
    · exact .inl hc
    · exact .inr hc

theorem instrFailure_eq_divByZero_iff (i : Instr) (b : Container) :
    instrFailure i b = some .divByZero ↔ (i = .div ∨ ∃ n, i = .shldiv n) ∧ low24 b = 0#24 := by
  cases i with
  | div => simp [instrFailure_div_eq_some_iff]
  | shldiv n => simp [instrFailure_shldiv_eq_some_iff]
  | _ => simp [instrFailure]

theorem instrFailure_eq_shiftRange_iff (i : Instr) (b : Container) :
    instrFailure i b = some .shiftRange ↔
      ∃ n, 24 ≤ n ∧ (i = .shl n ∨ i = .shr n ∨ (i = .shldiv n ∧ low24 b ≠ 0#24)) := by
  cases i with
  | shl n => simp [instrFailure_shl_eq_some_iff]
  | shr n => simp [instrFailure_shr_eq_some_iff]
  | shldiv n => simp [instrFailure_shldiv_eq_some_iff, and_comm]
  | _ => simp [instrFailure]

theorem instrFailure_eq_illegalOp_iff (i : Instr) (b : Container) :
    instrFailure i b = some .illegalOp ↔
      i = .reservedC ∨ i = .reservedD ∨ i = .reservedE ∨ i = .reservedF := by
  cases i with
  | shldiv n => simp [instrFailure_shldiv_eq_some_iff]
  | _ => simp [instrFailure]

/-- Settles O34: each code is the failure of exactly the instructions and divisors its rule names. -/
theorem eachFailureHasExactlyItsCauses : Obligations.EachFailureHasExactlyItsCauses := by
  intro i s
  simp only [exec_fails_iff]
  exact ⟨instrFailure_eq_divByZero_iff i s.b, instrFailure_eq_shiftRange_iff i s.b,
    instrFailure_eq_illegalOp_iff i s.b⟩

/-- Settles O33: SHLDIV tests its divisor before its shift amount. -/
theorem zeroDivisorGoesBeforeShiftRange : Obligations.ZeroDivisorGoesBeforeShiftRange :=
  fun _ s hb _ => (exec_eq_next_iff _ s _).2 (respShldiv_of_zero hb)

/-- Settles O42: the response is a function of the operand containers, which a recorded failure leaves as they are. -/
theorem failureIsNotSticky : Obligations.FailureIsNotSticky :=
  fun i s _ => ⟨instrResponse i s.a s.b, exec_eq_record i s, exec_eq_record i _⟩

/-! ### The pins after a step -/

/-- A step leaves its request on the ports and records the response to it (R162, R168). -/
theorem responses_of_step {s t : State} (h : step s = .next t) :
    t.responses = s.responses ++ [t.portResponse] := by
  obtain ⟨-, l, rest, a, b, -, -, -, rfl⟩ := step_cases h
  rw [record_responses, drive_responses, instrResponse_decode]
  rfl

theorem portErr_of_portResponse {s : State} {r : Response} (h : s.portResponse = r) : s.portErr = r.err :=
  congrArg Response.err h

theorem portY_of_portResponse {s : State} {y : Container} (h : s.portResponse = .ok y) : s.portY = y := by
  rw [State.portY, h]

/-- Settles O46: the recorded response is the one to the request still on the ports. -/
theorem pinsShowTheRecordedResponse : Obligations.PinsShowTheRecordedResponse :=
  fun _ t h => ⟨t.portResponse, responses_of_step h,
    fun _ hy => ⟨portErr_of_portResponse hy, portY_of_portResponse hy⟩,
    portErr_of_portResponse, portErr_of_portResponse, portErr_of_portResponse⟩

end Sys2Proof.Machine

/-! SUPPORT. The host level (spec/70_reset_and_hazards.md R160 to R172): a step is one transaction of the next line,
or it says why there is none. By induction over the lines left, the run of a well-formed program ends in success or
at its first failure. -/

namespace Sys2Proof.Machine

/-! ### What a step answers, by the host's situation -/

theorem step_of_present_fault {s : State} {f : Fault} (h : present s = .fault f) : step s = .fault f := by
  rw [step, h]

theorem step_of_present_refused {s : State} {r : Refusal} (h : present s = .refused r) : step s = .refused r := by
  rw [step, h]

/-- A host that has stopped presents nothing more (R170). -/
theorem step_of_stoppedAt {s : State} {k : Nat} {c : FailCode} (h : s.stoppedAt = some (k, c)) :
    step s = .fault (.failedAt k c) :=
  step_of_present_fault (by rw [present, h])

/-- After the last line there is nothing to present (R170). -/
theorem step_of_pending_nil {s : State} (hs : s.stoppedAt = none) (hp : s.pending = []) :
    step s = .fault .runEnded :=
  step_of_present_fault (by rw [present, hs, hp])

/-- A line with an operand that has no value is not presented (R169). -/
theorem step_of_operand_none {s : State} {l : Line} {rest : List Line} (hs : s.stoppedAt = none)
    (hp : s.pending = l :: rest) (h : s.operand l.a = none ∨ s.operand l.b = none) :
    step s = .refused (.illFormedLine (s.responses.length + 1)) := by
  apply step_of_present_refused
  unfold present
  simp only [hs, hp]
  obtain ha | hb := h
  · rw [ha]
  · rw [hb]
    cases s.operand l.a <;> rfl

/-- A line whose operands have values is presented, and its decoded word is executed (R168, R169). -/
theorem step_of_operands {s : State} {l : Line} {rest : List Line} {a b : Container} (hs : s.stoppedAt = none)
    (hp : s.pending = l :: rest) (ha : s.operand l.a = some a) (hb : s.operand l.b = some b) :
    step s = exec (decode l.cw) (s.drive l.cw a b rest) := by
  rw [step, present_line hs hp ha hb]
  rfl

/-- So the response of `F` to its request is recorded (R67, R168). -/
theorem step_eq_record {s : State} {l : Line} {rest : List Line} {a b : Container} (hs : s.stoppedAt = none)
    (hp : s.pending = l :: rest) (ha : s.operand l.a = some a) (hb : s.operand l.b = some b) :
    step s = .next ((s.drive l.cw a b rest).record (respond l.cw a b)) := by
  rw [step_of_operands hs hp ha hb, exec_eq_record, drive_a, drive_b, instrResponse_decode]

/-- Settles O39: a host that has not stopped presents a line whose operands have values. -/
theorem stepRunsTheDecodedInstruction : Obligations.StepRunsTheDecodedInstruction :=
  fun s _ _ _ _ hs hp ha hb => step_of_operands ((stoppedAt_eq_none s).2 hs) hp ha hb

/-- Settles O40: what a step can do, with `F` for the response of the decoded instruction. -/
theorem nextStepIsOneTransaction : Obligations.NextStepIsOneTransaction := by
  intro s t h
  obtain ⟨-, l, rest, a, b, hp, ha, hb, rfl⟩ := step_cases h
  refine ⟨l, rest, a, b, hp, ha, hb, ?_⟩
  rw [instrResponse_decode]
  rfl

/-- Settles O41: a literal operand has its value in every state. -/
theorem everyLiteralRequestIsAnswered : Obligations.EveryLiteralRequestIsAnswered :=
  fun s _ a b _ hs hp => step_eq_record ((stoppedAt_eq_none s).2 hs) hp (operand_lit s a) (operand_lit s b)

/-! ### The end of a run -/

theorem runEnd_of_stoppedAt {s : State} {k : Nat} {c : FailCode} (h : s.stoppedAt = some (k, c)) :
    s.runEnd = some (.failed k c) := by
  rw [State.runEnd, h]

theorem runEnd_of_pending_nil {s : State} (hs : s.stoppedAt = none) (hp : s.pending = []) :
    s.runEnd = some (.finished (s.responses.map Response.result?)) := by
  rw [State.runEnd, hs, hp]

/-- Under the policy `stop` the host stops at the first failure in its record, that of the line numbered by the
successes before it (R170). -/
theorem stoppedAt_of_first_failure {s : State} {pre post : List Response} {c : FailCode}
    (hpol : s.onFailure = .stop) (hrs : s.responses = pre ++ .fail c :: post) (hpre : ∀ r ∈ pre, ∃ y, r = .ok y) :
    s.stoppedAt = some (pre.length + 1, c) := by
  simp only [State.stoppedAt, hpol, hrs]
  rw [firstFailureFrom_append 1 pre post c hpre, Nat.add_comm]

/-- Settles O43: the host has stopped at that failure, which ends the step and the run. -/
theorem hostStopsAtTheFirstFailure : Obligations.HostStopsAtTheFirstFailure := by
  intro s pre post c hpol hrs hpre
  have hs : s.stoppedAt = some (pre.length + 1, c) := stoppedAt_of_first_failure hpol hrs hpre
  exact ⟨step_of_stoppedAt hs, runEnd_of_stoppedAt hs⟩

/-! ### The host variables -/

/-- A host variable holds exactly the result of its own line, if that succeeded (R169). -/
theorem hostVar_eq_some_iff (s : State) (k : Nat) (v : Container) :
    s.hostVar k = some v ↔ 1 ≤ k ∧ s.responses[k - 1]? = some (.ok v) := by
  cases k with
  | zero => simp [State.hostVar]
  | succ k =>
    have hres (r : Response) : r.result? = some v ↔ r = .ok v := by cases r <;> simp [Response.result?]
    simp [State.hostVar, Option.bind_eq_some_iff, hres]

/-- No line has been presented yet for a variable beyond the record. -/
theorem hostVar_of_length_lt {s : State} {k : Nat} (h : s.responses.length < k) : s.hostVar k = none := by
  refine Option.eq_none_iff_forall_ne_some.2 fun v hv => ?_
  obtain ⟨-, hk⟩ := (hostVar_eq_some_iff s k v).1 hv
  rw [List.getElem?_eq_none (Nat.le_sub_one_of_lt h)] at hk
  cases hk

theorem hostVar_of_failed {s : State} {k : Nat} {c : FailCode} (h : s.responses[k - 1]? = some (.fail c)) :
    s.hostVar k = none := by
  refine Option.eq_none_iff_forall_ne_some.2 fun v hv => ?_
  obtain ⟨-, hk⟩ := (hostVar_eq_some_iff s k v).1 hv
  rw [h] at hk
  cases hk

/-- The variable of the line presented last holds the result of the response recorded last. -/
theorem hostVar_of_last {s t : State} {r : Response} (h : t.responses = s.responses ++ [r]) :
    t.hostVar (s.responses.length + 1) = r.result? := by
  simp [State.hostVar, h]

/-- Settles O44: `r<k>` holds nothing in any of the three cases. -/
theorem lineWithoutItsOperandIsNotPresented : Obligations.LineWithoutItsOperandIsNotPresented := by
  intro s l rest k hs hp href hk
  have hnone : s.operand (.ref k) = none := by
    obtain rfl | hlt | ⟨c, hc⟩ := hk
    · rfl
    · exact hostVar_of_length_lt hlt
    · exact hostVar_of_failed hc
  refine step_of_operand_none ((stoppedAt_eq_none s).2 hs) hp (href.imp ?_ ?_) <;>
    exact fun h => h ▸ hnone

/-- Settles O45: a step adds one response, so it writes the variable of that response and no other. -/
theorem hostVariablesAreWrittenOnce : Obligations.HostVariablesAreWrittenOnce := by
  intro s t h
  have hrs : t.responses = s.responses ++ [t.portResponse] := responses_of_step h
  refine ⟨fun k hk => ?_, hostVar_of_length_lt (Nat.lt_succ_self _), hostVar_of_last hrs⟩
  obtain hlt | hle := Nat.lt_or_ge s.responses.length k
  · have hlt' : t.responses.length < k := by
      rw [hrs, List.length_append, List.length_singleton]
      omega
    rw [hostVar_of_length_lt hlt, hostVar_of_length_lt hlt']
  · exact hostVar_of_prefix hrs hle

/-! ### Well-formed programs -/

theorem programWellFormed_cons_iff (j : Nat) (l : Line) (p : List Line) :
    programWellFormed j (l :: p) = true ↔ operandWellFormed j l.a = true ∧ operandWellFormed j l.b = true ∧
      programWellFormed (j + 1) p = true := by
  simp [programWellFormed, and_assoc]

theorem operandWellFormed_ref_iff (j k : Nat) : operandWellFormed j (.ref k) = true ↔ 1 ≤ k ∧ k < j := by
  simp [operandWellFormed]

/-- Settles O49: the line taken off the program and the response added to the record count as one. -/
theorem stepKeepsTheProgramWellFormed : Obligations.StepKeepsTheProgramWellFormed := by
  intro s t hwf h
  obtain ⟨-, l, rest, a, b, hp, -, -, rfl⟩ := step_cases h
  rw [hp, programWellFormed_cons_iff] at hwf
  obtain ⟨-, -, hrest⟩ := hwf
  simpa using hrest

/-- While no transaction has failed, every reference to an earlier line has a value (R169). -/
theorem operand_isSome_of_wellFormed {s : State} (hs : s.NoFailure) {o : Operand}
    (ho : operandWellFormed (s.responses.length + 1) o = true) : ∃ v, s.operand o = some v := by
  cases o with
  | lit v => exact ⟨v, operand_lit s v⟩
  | ref k =>
    obtain ⟨hk, hlt⟩ := (operandWellFormed_ref_iff _ k).1 ho
    have hidx : k - 1 < s.responses.length := by omega
    obtain ⟨v, hv⟩ := hs _ (List.getElem_mem hidx)
    exact ⟨v, (hostVar_eq_some_iff s k v).2 ⟨hk, List.getElem?_eq_some_iff.2 ⟨hidx, hv⟩⟩⟩

/-- So the next line of a well-formed program is presented and answered. -/
theorem step_of_wellFormed {s : State} {l : Line} {rest : List Line} (hs : s.NoFailure) (hp : s.pending = l :: rest)
    (hwf : programWellFormed (s.responses.length + 1) s.pending = true) : ∃ t, step s = .next t := by
  rw [hp, programWellFormed_cons_iff] at hwf
  obtain ⟨hwa, hwb, -⟩ := hwf
  obtain ⟨a, ha⟩ := operand_isSome_of_wellFormed hs hwa
  obtain ⟨b, hb⟩ := operand_isSome_of_wellFormed hs hwb
  exact ⟨_, step_eq_record ((stoppedAt_eq_none s).2 (.inr hs)) hp ha hb⟩

/-! ### Running a well-formed program to its end -/

/-- A step takes one line off the program, records one response, and keeps the policy (R168). -/
theorem fields_of_step {s t : State} (h : step s = .next t) : ∃ l, s.pending = l :: t.pending ∧
    t.responses = s.responses ++ [t.portResponse] ∧ t.onFailure = s.onFailure := by
  have hrs := responses_of_step h
  obtain ⟨-, l, rest, a, b, hp, -, -, rfl⟩ := step_cases h
  exact ⟨l, hp, hrs, rfl⟩

theorem State.NoFailure.of_append_ok {s t : State} {y : Container} (hs : s.NoFailure)
    (h : t.responses = s.responses ++ [.ok y]) : t.NoFailure := by
  intro r hr
  rw [h, List.mem_append, List.mem_singleton] at hr
  obtain hr | rfl := hr
  · exact hs r hr
  · exact ⟨y, rfl⟩

theorem runUpTo_succ_of_next {s t : State} (h : step s = .next t) (fuel : Nat) :
    runUpTo (fuel + 1) s = runUpTo fuel t := by
  rw [runUpTo, h]

/-- A host that has stopped stays where it is. -/
theorem runUpTo_of_stoppedAt {s : State} {k : Nat} {c : FailCode} (h : s.stoppedAt = some (k, c)) (fuel : Nat) :
    runUpTo fuel s = s := by
  cases fuel with
  | zero => rfl
  | succ fuel => rw [runUpTo, step_of_stoppedAt h]

/-- The run ended after `n` transactions, all of them successful (R170). -/
def State.FinishedAfter (s : State) (n : Nat) : Prop :=
  s.Succeeded ∧ s.responses.length = n ∧ s.runEnd = some (.finished (s.responses.map Response.result?))

/-- The run ended at its first failure, the response of which is the last one recorded (R170). -/
def State.EndedAtFirstFailure (s : State) : Prop :=
  ∃ (pre : List Response) (c : FailCode), s.responses = pre ++ [.fail c] ∧
    (∀ r ∈ pre, ∃ y, r = .ok y) ∧ s.runEnd = some (.failed (pre.length + 1) c)

/-- The run of what is left of a well-formed program, with no failure so far, by induction over the lines left: each
line is presented, and its response lets the host go on to the next line or stops it there. -/
theorem runUpTo_ends {p : List Line} {s : State} (hp : s.pending = p) (hpol : s.onFailure = .stop)
    (hs : s.NoFailure) (hwf : programWellFormed (s.responses.length + 1) s.pending = true) :
    (runUpTo p.length s).FinishedAfter (s.responses.length + p.length) ∨
      (runUpTo p.length s).EndedAtFirstFailure := by
  induction p generalizing s with
  | nil => exact .inl ⟨⟨hp, hs⟩, rfl, runEnd_of_pending_nil ((stoppedAt_eq_none s).2 (.inr hs)) hp⟩
  | cons l rest ih =>
    obtain ⟨t, ht⟩ := step_of_wellFormed hs hp hwf
    have hwft := stepKeepsTheProgramWellFormed s t hwf ht
    obtain ⟨l', hpt, hrs, hpolt⟩ := fields_of_step ht
    have hrest : t.pending = rest := (List.cons.inj (hpt.symm.trans hp)).2
    rw [hpol] at hpolt
    rw [List.length_cons, runUpTo_succ_of_next ht]
    cases hr : t.portResponse with
    | ok y =>
      rw [hr] at hrs
      have hlen : t.responses.length + rest.length = s.responses.length + (rest.length + 1) := by
        rw [hrs, List.length_append, List.length_singleton]
        omega
      exact hlen ▸ ih hrest hpolt (hs.of_append_ok hrs) hwft
    | fail c =>
      rw [hr] at hrs
      have hstop : t.stoppedAt = some (s.responses.length + 1, c) := stoppedAt_of_first_failure hpolt hrs hs
      rw [runUpTo_of_stoppedAt hstop]
      exact .inr ⟨s.responses, c, hrs, hs, runEnd_of_stoppedAt hstop⟩

/-- Settles O50: a loaded program starts with nothing recorded, so with no failure. -/
theorem runOfAWellFormedProgramEnds : Obligations.RunOfAWellFormedProgramEnds := by
  intro s p hpol hwf
  have hload : (s.load p).NoFailure := fun r hr => nomatch hr
  have hends := runUpTo_ends (load_pending s p) hpol hload hwf
  rwa [load_responses, List.length_nil, Nat.zero_add] at hends

/-! ### A command word placed as the next line, and the reset state -/

/-- A host that had stopped goes on when a command word is placed (log entry 18). -/
theorem stoppedAt_loadWord (s : State) (w : Nat) : (s.loadWord w).stoppedAt = none := by
  cases h : s.stoppedAt with
  | some kc => exact (stoppedAt_eq_none _).2 (.inl (by simp [h]))
  | none =>
    obtain hpol | hok := (stoppedAt_eq_none s).1 h
    · exact (stoppedAt_eq_none _).2 (.inl (by simp [hpol]))
    · exact (stoppedAt_eq_none _).2 (.inr hok)

theorem decodeTableWord_of_lt (nbits : Nat) {w : Nat} (h : w < 512) :
    decodeTableWord nbits w = some (decode (BitVec.ofNat 9 w)) := by
  have hdec : decodeNat w = .ok (decode (BitVec.ofNat 9 w)) := if_pos h
  rw [decodeTableWord, hdec]
  rfl

/-- Settles O51: the placed line is next, its operands are the ports' values, and the host is free to present it. -/
theorem fetchWordRunsNext : Obligations.FetchWordRunsNext :=
  fun s nbits w hw => ⟨(s.loadWord w).onFailure,
    step_of_operands (stoppedAt_loadWord s w) (loadWord_pending s w) (operand_lit _ s.a) (operand_lit _ s.b),
    decodeTableWord_of_lt nbits hw⟩

/-- Settles O52: with an empty record no line has a result, and with no program there is no line. -/
theorem resetHasNothingRecorded : Obligations.ResetHasNothingRecorded := by
  refine ⟨reset_responses, fun k => ?_, step_of_pending_nil rfl reset_pending⟩
  cases k with
  | zero => rfl
  | succ k => exact hostVar_of_length_lt (Nat.succ_pos k)

end Sys2Proof.Machine
